-- ==== Sys2Proof/Word.lean ====
section
/-!
DEFINITION. The plain types of the spec's notation (00_scope.md R6, R7): bytes, instruction words, register-wide
words, register numbers, and the enumeration ExtendType (30_encoding.md R74).
-/
namespace Sys2Proof

/-- One byte of a stored instruction word (20_memory.md R54). -/
abbrev Byte := BitVec 8

/-- One 32-bit instruction word, bit 31 the most significant (00_scope.md R6, 30_encoding.md R65). -/
abbrev Word := BitVec 32

/-- A register-wide value or an address: 64 bits (10_state.md R30, R36, R38). -/
abbrev XWord := BitVec 64

/-- A register number as Decode reads it: an integer 0 to 31 (30_encoding.md R71). What 31 names depends on the
operand's position (10_state.md R32). -/
abbrev RegNum := Fin 32

/-- `enumeration ExtendType` with its eight members (30_encoding.md R74). LSL is an assembler spelling and no member
(90_conflicts.md C4). -/
inductive ExtendType where
  | uxtb
  | uxth
  | uxtw
  | uxtx
  | sxtb
  | sxth
  | sxtw
  | sxtx
  deriving DecidableEq, Repr

end Sys2Proof
end

