-- ==== Sys2Proof/Config.lean ====
section
/-!
DEFINITION. The parameters the spec fixes for every machine (00_scope.md R5). The open parameters PROGRAM, PROG_BASE
and the start state stand in State (log entries 1 and 2). The spec names no implementation option and no unspecified
value (70_reset_and_hazards.md R143; 92_eei_decisions.md, Open parameters), so nothing here is opaque.
-/
namespace Sys2Proof

/-- An instruction word is 4 bytes, and the pc advances by 4 (10_state.md R38). -/
abbrev Config.instrBytes : Nat := 4

/-- The number of addresses: addresses are 64-bit byte addresses (20_memory.md R51). -/
abbrev Config.addressSpace : Nat := 2 ^ 64

/-- The largest shift that Decode admits (30_encoding.md R75). -/
abbrev Config.maxShift : Nat := 4

end Sys2Proof
end

