-- ==== Sys2Proof/Machine/State.lean ====
section
/-!
DEFINITION. The machine's state as plain data (10_state.md; INVENTORY.md, State), its start after reset, and the
reasons a step can stop.
-/
namespace Sys2Proof.Machine

/-- The populated bytes of the one address space (20_memory.md R51): address and byte, addresses strictly rising.
An address that is not listed is not populated and has no value (log entry 3), so no listed value is redundant. -/
abbrev Memory := List Host.Cell

/-- The canonical form: addresses strictly rising and inside the 64-bit space. -/
abbrev Memory.wf (m : Memory) : Prop :=
  (m.map Prod.fst).Pairwise (· < ·) ∧ ∀ c ∈ m, c.1 < Config.addressSpace

/-- The PSTATE fields the source names (10_state.md R39, R40, R41). -/
structure PState where
  n : Bool
  z : Bool
  c : Bool
  v : Bool
  dit : Bool
  deriving DecidableEq, Repr

/-- What the fault mark `Undefined(pc, word)` records (60_exceptions.md R120, R122). -/
structure FaultMark where
  pc : XWord
  word : Word
  deriving DecidableEq, Repr

/-- Everything the spec gives the machine (10_state.md R30 to R43; 60_exceptions.md R122), and the host's PROGRAM and
PROG_BASE (20_memory.md R52), which no step changes (log entry 2). -/
structure State where
  /-- General registers x[0] to x[30] (10_state.md R30). -/
  x : Vector XWord 31
  /-- The one stack pointer (10_state.md R36, R37). -/
  sp : XWord
  /-- The address of the instruction being executed (10_state.md R38). -/
  pc : XWord
  /-- PSTATE.N, Z, C, V and DIT (10_state.md R39, R40). -/
  pstate : PState
  /-- The fault mark, once a step has raised Undefined (60_exceptions.md R122). -/
  faultMark : Option FaultMark
  /-- The bytes that hold PROGRAM (20_memory.md R51, R54). -/
  mem : Memory
  /-- PROG_BASE (20_memory.md R52). -/
  progBase : XWord
  /-- The length L of PROGRAM in words (20_memory.md R52). -/
  progLen : Nat
  deriving DecidableEq, Repr

/-- The hardware raises an exception (00_scope.md R20). -/
inductive Fault where
  /-- `Undefined(pc, word)`: raised by `raiseUndefined` when a word of the class has `imm3 > 4` (60_exceptions.md
  R120), and answered again by a step from a state that holds the mark (R122). Terminal, so safe. -/
  | undefined (pc : XWord) (word : Word)
  deriving DecidableEq, Repr

/-- The spec gives the step no meaning (00_scope.md R20). Every constructor is safe: the model stops. -/
inductive Refusal where
  /-- Raised by an arm of exec that has no meaning yet; safe. No arm is of this kind now. -/
  | notModelled (mnemonic : String)
  /-- Raised by the step on a word outside the class (30_encoding.md R76); safe. -/
  | notInSpec (pc : XWord) (word : Word)
  /-- Raised by the fetch at a pc that is no word of PROGRAM (20_memory.md R52); safe. -/
  | fetchOutsideProgram (pc : XWord)
  /-- Raised by the fetch when PROG_BASE is no multiple of 4 (20_memory.md R53); safe. -/
  | misalignedProgBase (base : XWord)
  /-- Raised by the fetch when PROG_BASE + 4*L exceeds 2^64 (20_memory.md R52, 70_reset_and_hazards.md R142); safe. -/
  | programPastTop (base : XWord) (len : Nat)
  /-- Raised by the fetch when a byte of PROGRAM is not populated, which R51 rules out; safe. -/
  | programByteMissing (pc : XWord)
  /-- Raised by the fetch at PROG_BASE + 4*L: there is no step, the run has ended and the state is the final one
  (70_reset_and_hazards.md R143, R144); safe (log entry 5). -/
  | runEnded (pc : XWord)
  deriving DecidableEq, Repr

/-- After reset. The spec describes no reset (70_reset_and_hazards.md R140): no fault mark (R140) and pc = PROG_BASE
(10_state.md R43) are its words; every other value is named by log entries 1 and 2. DESIGN CHOICE, unsafe. -/
def State.reset : State where
  x := Vector.replicate 31 0#64
  sp := 0#64
  pc := 0#64
  pstate := { n := false, z := false, c := false, v := false, dit := false }
  faultMark := none
  mem := []
  progBase := 0#64
  progLen := 0

end Sys2Proof.Machine
end

