-- ==== Sys2Proof/Machine/Flags.lean ====
section
/-!
DEFINITION. AddWithCarry: the sum and the four flags (40_sub_extended_register.md R99; log entry 8).
-/
namespace Sys2Proof.Machine

/-- `n : z : c : v` of a sum (40_sub_extended_register.md R99): n and z of the result, c where the unsigned sum did not
fit, v where the signed sum did not. -/
def nzcvOf {w : Nat} (result : BitVec w) (unsignedSum : Nat) (signedSum : Int) : BitVec 4 :=
  BitVec.ofBool result.msb ++ BitVec.ofBool (decide (result = 0#w)) ++
    BitVec.ofBool (decide (result.toNat ≠ unsignedSum)) ++ BitVec.ofBool (decide (result.toInt ≠ signedSum))

/-- `AddWithCarry(x, y, carry_in)` (40_sub_extended_register.md R99), computed on exact integers and narrowed once. -/
def addWithCarry {w : Nat} (x y : BitVec w) (carryIn : Bool) : BitVec w × BitVec 4 :=
  let unsignedSum : Nat := x.toNat + y.toNat + carryIn.toNat
  let signedSum : Int := x.toInt + y.toInt + carryIn.toNat
  let result := BitVec.ofNat w unsignedSum
  (result, nzcvOf result unsignedSum signedSum)

end Sys2Proof.Machine
end

