-- ==== Sys2Proof/Syntax.lean ====
section
/-!
DEFINITION. The instructions: one constructor per row of spec/opcode_table.json.
-/
namespace Sys2Proof

/-- SUB (extended register), with the operands that Decode makes of the fields (30_encoding.md R71, R73, R74):
`d = UInt(Rd)`, `n = UInt(Rn)`, `m = UInt(Rm)`, `ext = DecodeRegExtend(option)`, `shift = UInt(imm3)`. The constructor
says the datasize. -/
inductive Instr where
  /-- Encoding SUB_32_addsub_ext, datasize 32 (30_encoding.md R68). -/
  | sub32 (d n m : RegNum) (ext : ExtendType) (shift : Fin 8)
  /-- Encoding SUB_64_addsub_ext, datasize 64 (30_encoding.md R69). -/
  | sub64 (d n m : RegNum) (ext : ExtendType) (shift : Fin 8)
  deriving DecidableEq, Repr

end Sys2Proof
end

