-- ==== Sys2Proof/WellFormed.lean ====
section
/-!
DEFINITION. Which instruction terms the decoder may give: 30_encoding.md R75 leaves one check, the shift.
-/
namespace Sys2Proof

/-- Decode's one test passes: `shift > 4` is false (30_encoding.md R75). Every other field is legal at every value. -/
def Instr.wf : Instr → Bool
  | .sub32 _ _ _ _ shift => decide (shift.val ≤ Config.maxShift)
  | .sub64 _ _ _ _ shift => decide (shift.val ≤ Config.maxShift)

end Sys2Proof
end

