-- ==== Sys2Proof/Decode.lean ====
section
/-!
DEFINITION. The decoder (30_encoding.md R65 to R76), total on any bytes, and the encoder, written from the same
diagram (R66). Stored words are little-endian (20_memory.md R54; log entry 4).
-/
namespace Sys2Proof

/-! ### Fields of the one format, ADDSUB_EXT (30_encoding.md R66) -/

/-- `sf`, bit 31. -/
def fieldSf (w : Word) : Bool := w.getLsbD 31
/-- `Rm`, bits 20:16. -/
def fieldRm (w : Word) : BitVec 5 := w.extractLsb' 16 5
/-- `option`, bits 15:13. -/
def fieldOption (w : Word) : BitVec 3 := w.extractLsb' 13 3
/-- `imm3`, bits 12:10. -/
def fieldImm3 (w : Word) : BitVec 3 := w.extractLsb' 10 3
/-- `Rn`, bits 9:5. -/
def fieldRn (w : Word) : BitVec 5 := w.extractLsb' 5 5
/-- `Rd`, bits 4:0. -/
def fieldRd (w : Word) : BitVec 5 := w.extractLsb' 0 5

/-- The word belongs to the class: its bits 30:21 are the fixed ones (30_encoding.md R67). -/
def inClass (w : Word) : Bool := w &&& 0x7FE00000#32 == 0x4B200000#32

/-- `DecodeRegExtend` (30_encoding.md R74). -/
def decodeRegExtend (op : BitVec 3) : ExtendType :=
  match op.toFin with
  | 0 => .uxtb
  | 1 => .uxth
  | 2 => .uxtw
  | 3 => .uxtx
  | 4 => .sxtb
  | 5 => .sxth
  | 6 => .sxtw
  | 7 => .sxtx

/-- Why no instruction is read, by name. -/
inductive Rejection where
  /-- A word outside the class: the spec gives it no meaning (30_encoding.md R76). -/
  | notInSpec
  /-- A word of the class with `imm3 > 4` (30_encoding.md R75). -/
  | undefined
  /-- Fewer than the four bytes of a word (30_encoding.md R65). -/
  | tooFewBytes
  deriving DecidableEq, Repr

/-- The constructor of an encoding: `sf` 1 selects SUB64, 0 SUB32 (30_encoding.md R70). -/
def subInstr (is64 : Bool) (d n m : RegNum) (ext : ExtendType) (shift : Fin 8) : Instr :=
  if is64 then .sub64 d n m ext shift else .sub32 d n m ext shift

/-- The decoder on words (30_encoding.md R70); its four verdicts are the two instructions, `undefined`, `notInSpec`. -/
def decode (w : Word) : Except Rejection Instr :=
  if inClass w then
    if 4 < (fieldImm3 w).toNat then .error .undefined
    else
      .ok (subInstr (fieldSf w) (fieldRd w).toFin (fieldRn w).toFin (fieldRm w).toFin
        (decodeRegExtend (fieldOption w)) (fieldImm3 w).toFin)
  else .error .notInSpec

/-! ### Byte order of a stored word (20_memory.md R54) -/

/-- The word whose byte at the lowest address is `b0`. -/
def wordOfBytes (b0 b1 b2 b3 : Byte) : Word := b3 ++ b2 ++ b1 ++ b0

/-- The four bytes of a word, the one at the lowest address first. -/
def bytesOfWord (w : Word) : List Byte :=
  [w.extractLsb' 0 8, w.extractLsb' 8 8, w.extractLsb' 16 8, w.extractLsb' 24 8]

/-- The decoder on bytes: one instruction and the bytes after it. -/
def decodeBytes : List Byte → Except Rejection (Instr × List Byte)
  | b0 :: b1 :: b2 :: b3 :: rest =>
    match decode (wordOfBytes b0 b1 b2 b3) with
    | .ok i => .ok (i, rest)
    | .error r => .error r
  | _ => .error .tooFewBytes

/-- The decoder on a word numbered as spec/opcode_table.json numbers it; bits from `nbits` up are zero. -/
def decodeTableWord (nbits w : Nat) : Option Instr :=
  match decodeBytes (bytesOfWord (BitVec.ofNat 32 (w % 2 ^ nbits))) with
  | .ok (i, _) => some i
  | .error _ => none

/-! ### The encoder -/

/-- The `option` value of an extension, the inverse of `decodeRegExtend` (30_encoding.md R74). -/
def encodeRegExtend : ExtendType → BitVec 3
  | .uxtb => 0b000#3
  | .uxth => 0b001#3
  | .uxtw => 0b010#3
  | .uxtx => 0b011#3
  | .sxtb => 0b100#3
  | .sxth => 0b101#3
  | .sxtw => 0b110#3
  | .sxtx => 0b111#3

/-- The diagram's boxes in order, bit 31 first (30_encoding.md R66): sf, op = 1, S = 0, 01011, opt = 00, 1, Rm,
option, imm3, Rn, Rd. -/
def encodeFields (sf : BitVec 1) (rm : BitVec 5) (option imm3 : BitVec 3) (rn rd : BitVec 5) : Word :=
  sf ++ 1#1 ++ 0#1 ++ 0b01011#5 ++ 0b00#2 ++ 1#1 ++ rm ++ option ++ imm3 ++ rn ++ rd

/-- The word of an instruction (30_encoding.md R66, R68, R69). -/
def encodeWord : Instr → Word
  | .sub32 d n m ext shift =>
    encodeFields 0#1 (BitVec.ofFin m) (encodeRegExtend ext) (BitVec.ofFin shift) (BitVec.ofFin n) (BitVec.ofFin d)
  | .sub64 d n m ext shift =>
    encodeFields 1#1 (BitVec.ofFin m) (encodeRegExtend ext) (BitVec.ofFin shift) (BitVec.ofFin n) (BitVec.ofFin d)

/-- The bytes of an instruction as they are stored (20_memory.md R54). -/
def encode (i : Instr) : List Byte := bytesOfWord (encodeWord i)

end Sys2Proof
end

