-- ==== Sys2Proof/Machine/Ops.lean ====
section
/-!
DEFINITION. The named operations over registers, memory, the pc and the fault mark.
-/
namespace Sys2Proof.Machine

/-! ### General registers and the stack pointer -/

/-- `Xread(n, w)` (10_state.md R33): zero for number 31, else the low w bits of x[n]. -/
def xRead (n : RegNum) (w : Nat) (s : State) : BitVec w :=
  if h : n.val < 31 then s.x[n.val].setWidth w else 0#w

/-- `Xwrite(n, w, v)` (10_state.md R34; log entry 6): zero-extends into all 64 bits of x[n]; discarded for number 31. -/
def xWrite (n : RegNum) (w : Nat) (v : BitVec w) (s : State) : State :=
  if h : n.val < 31 then { s with x := s.x.set n.val (v.setWidth 64) } else s

/-- `SP[]` (10_state.md R36). -/
def spRead (s : State) : XWord := s.sp

/-- `SP[] = v` (10_state.md R36). -/
def spWrite (v : XWord) (s : State) : State := { s with sp := v }

/-! ### Flags and the pc -/

/-- `PSTATE.<N,Z,C,V> = nzcv`, most significant bit first (00_scope.md R8). -/
def setNzcv (nzcv : BitVec 4) (s : State) : State :=
  { s with pstate :=
    { s.pstate with n := nzcv.getLsbD 3, z := nzcv.getLsbD 2, c := nzcv.getLsbD 1, v := nzcv.getLsbD 0 } }

/-- `pc <- (pc + 4) mod 2^64` (40_sub_extended_register.md R105; log entry 7). -/
def advancePc (s : State) : State := { s with pc := s.pc + 4#64 }

/-! ### Taking the exception

The spec defines no entry: no saved state, no vector, no handler and no return (60_exceptions.md R127), so there is
no return from exception to model. -/

/-- `raise Undefined(pc, word)` (00_scope.md R17; 60_exceptions.md R120): the instruction ends with the fault, before
any read or write, and no next state. -/
def raiseUndefined (word : Word) (s : State) : Host.Outcome State Fault Refusal :=
  .fault (.undefined s.pc word)

/-- The faulted state that a fault leaves (60_exceptions.md R122): all as before the instruction, the mark set. -/
def recordFault : Fault → State → State
  | .undefined pc word, s => { s with faultMark := some { pc := pc, word := word } }

/-! ### Memory -/

/-- The byte at an address, `none` where nothing is populated (log entry 3). -/
def Memory.readByte : Memory → XWord → Option Byte
  | [], _ => none
  | c :: m, a => if c.1 = a.toNat then some c.2 else Memory.readByte m a

/-- Write one byte, keeping the canonical form. -/
def Memory.writeByte : Memory → XWord → Byte → Memory
  | [], a, b => [(a.toNat, b)]
  | c :: m, a, b =>
    if a.toNat < c.1 then (a.toNat, b) :: c :: m
    else if c.1 = a.toNat then (a.toNat, b) :: m
    else c :: Memory.writeByte m a b

/-- `MemRead(addr, n)`: the n bytes from addr up (00_scope.md R18). No rule uses it on data. -/
def memRead (m : Memory) (a : XWord) : Nat → Option (List Byte)
  | 0 => some []
  | n + 1 =>
    match m.readByte a, memRead m (a + 1#64) n with
    | some b, some bs => some (b :: bs)
    | _, _ => none

/-- `MemWrite(addr, n, v)`, with v as its n bytes, the lowest address first (00_scope.md R18). No instruction uses it;
the host's placement of PROGRAM does. -/
def memWrite (m : Memory) (a : XWord) : List Byte → Memory
  | [] => m
  | b :: bs => memWrite (m.writeByte a b) (a + 1#64) bs

/-! ### PROGRAM -/

/-- The address of PROGRAM[k] (20_memory.md R52). -/
def programAddr (k : Nat) (s : State) : XWord := s.progBase + BitVec.ofNat 64 (4 * k)

/-- The address after the last word (70_reset_and_hazards.md R144). Modulo 2^64, as the pc is (log entry 5). -/
def programEnd (s : State) : XWord := programAddr s.progLen s

/-- The word PROGRAM[k], its bytes little-endian (20_memory.md R52, R54). -/
def programWord (k : Nat) (s : State) : Option Word :=
  match memRead s.mem (programAddr k s) 4 with
  | some [b0, b1, b2, b3] => some (wordOfBytes b0 b1 b2 b3)
  | _ => none

/-- The host places PROGRAM at PROG_BASE before a run (70_reset_and_hazards.md R142; log entry 2): only PROGRAM's
bytes are populated (20_memory.md R51), pc = PROG_BASE, and no fault mark is set (R140). -/
def loadProgram (base : XWord) (program : List Word) (s : State) : State :=
  { s with
    mem := memWrite [] base (program.flatMap bytesOfWord)
    progBase := base
    progLen := program.length
    pc := base
    faultMark := none }

end Sys2Proof.Machine
end

