-- ==== Sys2Proof/Machine/Operands.lean ====
section
/-!
DEFINITION. The operand forms: first source, extended second source, destination (10_state.md R32;
40_sub_extended_register.md R97, R98).
-/
namespace Sys2Proof.Machine

/-- Zero extension (TRUE) or sign extension (FALSE) (30_encoding.md R74). -/
def extendUnsigned : ExtendType → Bool
  | .uxtb | .uxth | .uxtw | .uxtx => true
  | .sxtb | .sxth | .sxtw | .sxtx => false

/-- The source width `len` in bits (30_encoding.md R74). -/
def extendLen : ExtendType → Nat
  | .uxtb | .sxtb => 8
  | .uxth | .sxth => 16
  | .uxtw | .sxtw => 32
  | .uxtx | .sxtx => 64

/-- `Extend(x, N, unsigned)` (00_scope.md R15). -/
def extend {w : Nat} (v : BitVec w) (N : Nat) (unsigned : Bool) : BitVec N :=
  if unsigned then v.setWidth N else v.signExtend N

/-- The part of `ExtendReg` after the register read (40_sub_extended_register.md R98; log entry 9): take len bits,
clamped so that they fit above `shift` zero bits, then extend to N bits. -/
def extendValue {N : Nat} (val : BitVec N) (ext : ExtendType) (shift : Nat) : BitVec N :=
  let len := min (extendLen ext) (N - shift)
  extend (val.setWidth len ++ 0#shift) N (extendUnsigned ext)

/-- `ExtendReg(reg, exttype, shift, N)` (40_sub_extended_register.md R98). Decode has made shift > 4 Undefined. -/
def extendReg (reg : RegNum) (ext : ExtendType) (shift N : Nat) (s : State) : BitVec N :=
  extendValue (xRead reg N s) ext shift

/-- The first source: `if n == 31 then SP[]<datasize-1:0> else X[n, datasize]` (40_sub_extended_register.md R97). -/
def firstSource (n : RegNum) (datasize : Nat) (s : State) : BitVec datasize :=
  if n = 31 then (spRead s).setWidth datasize else xRead n datasize s

/-- The destination: SP, zero-extended, for `d == 31 && !setflags`, else `X[d, datasize]`
(40_sub_extended_register.md R97). -/
def writeDest (d : RegNum) (setflags : Bool) {datasize : Nat} (result : BitVec datasize) (s : State) : State :=
  if d = 31 ∧ setflags = false then spWrite (result.setWidth 64) s else xWrite d datasize result s

end Sys2Proof.Machine
end

