-- ==== Sys2Proof/Machine/AddSubExtended.lean ====
section
/-!
DEFINITION. The family add-sub/extendedreg: the shared Execute text and the two instructions
(40_sub_extended_register.md R95, R96, R97).
-/
namespace Sys2Proof.Machine

/-- The Execute text shared by the family (40_sub_extended_register.md R97), its dead branches (R103) included. -/
def addSubExtended (datasize : Nat) (subOp setflags : Bool) (d n m : RegNum) (ext : ExtendType) (shift : Nat)
    (s : State) : State :=
  let operand1 := firstSource n datasize s
  let operand2 := extendReg m ext shift datasize s
  let r := if subOp then addWithCarry operand1 (~~~operand2) true else addWithCarry operand1 operand2 false
  writeDest d setflags r.1 (if setflags then setNzcv r.2 s else s)

/-- Decode's last statement, then Execute with `sub_op == TRUE` and `setflags == FALSE` (30_encoding.md R72, R75), then
the pc (40_sub_extended_register.md R105). -/
def subExtended (datasize : Nat) (word : Word) (d n m : RegNum) (ext : ExtendType) (shift : Fin 8) (s : State) :
    Host.Outcome State Fault Refusal :=
  if 4 < shift.val then raiseUndefined word s
  else .next (advancePc (addSubExtended datasize true false d n m ext shift.val s))

/-- SUB (extended register), 32-bit (40_sub_extended_register.md R95). -/
def execSub32 (d n m : RegNum) (ext : ExtendType) (shift : Fin 8) (s : State) : Host.Outcome State Fault Refusal :=
  subExtended 32 (encodeWord (.sub32 d n m ext shift)) d n m ext shift s

/-- SUB (extended register), 64-bit (40_sub_extended_register.md R96). -/
def execSub64 (d n m : RegNum) (ext : ExtendType) (shift : Fin 8) (s : State) : Host.Outcome State Fault Refusal :=
  subExtended 64 (encodeWord (.sub64 d n m ext shift)) d n m ext shift s

end Sys2Proof.Machine
end

