-- ==== Sys2Proof/Machine/Dispatch.lean ====
section
/-!
DEFINITION. One arm per instruction.
-/
namespace Sys2Proof.Machine

def exec (i : Instr) (s : State) : Host.Outcome State Fault Refusal :=
  match i with
  | .sub32 d n m ext shift => Sys2Proof.Machine.execSub32 d n m ext shift s
  | .sub64 d n m ext shift => Sys2Proof.Machine.execSub64 d n m ext shift s

end Sys2Proof.Machine
end

