-- ==== Sys2Proof/Machine/Fetch.lean ====
section
/-!
DEFINITION. What comes before decoding in a step: the fault mark, the end of the run, and the fetch
(70_reset_and_hazards.md R143; 20_memory.md R52, R53).
-/
namespace Sys2Proof.Machine

/-- What stops a step before a word is decoded. -/
inductive Stop where
  | fault (f : Fault)
  | refusal (r : Refusal)
  deriving DecidableEq, Repr

/-- A stop as the outcome of a step. -/
def Stop.outcome : Stop → Host.Outcome State Fault Refusal
  | .fault f => .fault f
  | .refusal r => .refused r

/-- The program's placement is one the host may supply (70_reset_and_hazards.md R142): PROG_BASE a multiple of 4
(20_memory.md R53), `PROG_BASE + 4*L <= 2^64` (R52). -/
abbrev placementOk (s : State) : Prop :=
  s.progBase.toNat % 4 = 0 ∧ s.progBase.toNat + 4 * s.progLen ≤ Config.addressSpace

/-- The run has ended: no fault mark and `pc == PROG_BASE + 4*L` (70_reset_and_hazards.md R144). -/
abbrev ended (s : State) : Prop := s.faultMark = none ∧ placementOk s ∧ s.pc = programEnd s

/-- The k with `pc = PROG_BASE + 4*k`, `0 <= k < L` (20_memory.md R52). -/
def programIndex (s : State) : Option Nat :=
  if s.progBase.toNat ≤ s.pc.toNat ∧ (s.pc.toNat - s.progBase.toNat) % 4 = 0 ∧
      (s.pc.toNat - s.progBase.toNat) / 4 < s.progLen then
    some ((s.pc.toNat - s.progBase.toNat) / 4)
  else none

/-- The fetched word, or what stops the step, in the order of 70_reset_and_hazards.md R143. -/
def fetch (s : State) : Except Stop Word :=
  match s.faultMark with
  | some mark => .error (.fault (.undefined mark.pc mark.word))
  | none =>
    if s.progBase.toNat % 4 ≠ 0 then .error (.refusal (.misalignedProgBase s.progBase))
    else if Config.addressSpace < s.progBase.toNat + 4 * s.progLen then
      .error (.refusal (.programPastTop s.progBase s.progLen))
    else if s.pc = programEnd s then .error (.refusal (.runEnded s.pc))
    else
      match programIndex s with
      | none => .error (.refusal (.fetchOutsideProgram s.pc))
      | some k =>
        match programWord k s with
        | none => .error (.refusal (.programByteMissing s.pc))
        | some w => .ok w

/-- The outcome of a word that decodes to no instruction: Undefined is a fault, any other word is refused
(70_reset_and_hazards.md R143; 30_encoding.md R76). -/
def rejected (r : Rejection) (word : Word) (s : State) : Host.Outcome State Fault Refusal :=
  match r with
  | .undefined => raiseUndefined word s
  | .notInSpec => .refused (.notInSpec s.pc word)
  | .tooFewBytes => .refused (.notInSpec s.pc word)

end Sys2Proof.Machine
end

