-- ==== Sys2Proof/Machine/Step.lean ====
section
/-!
DEFINITION. One step of the machine (70_reset_and_hazards.md R143).
-/
namespace Sys2Proof.Machine

/-- Fetch, decode, execute (70_reset_and_hazards.md R143). -/
def step (s : State) : Host.Outcome State Fault Refusal :=
  match fetch s with
  | .error stop => stop.outcome
  | .ok w =>
    match decode w with
    | .error r => rejected r w s
    | .ok i => exec i s

/-- The state whose next step runs the given table word: a program of that one word placed where the pc stands (log
entry 2), the pc's two low bits cleared so that PROG_BASE is a multiple of 4, as it is in every run. -/
def State.withFetchWord (s : State) (nbits w : Nat) : State :=
  loadProgram (s.pc &&& ~~~3#64) [BitVec.ofNat 32 (w % 2 ^ nbits)] s

end Sys2Proof.Machine
end

