-- ==== Sys2Proof/Machine/Assembler.lean ====
section
/-!
DEFINITION. The assembler's view of the instruction (30_encoding.md R80 to R88): a parsed statement, assembling it,
disassembling an instruction, and the printed text. The machine uses none of it.
-/
namespace Sys2Proof.Machine

/-- A register operand as written: W0 to W30, X0 to X30, WSP, SP, and the names WZR, XZR of register 31 in `Rm`
(30_encoding.md R81, R82; the spellings WZR and XZR are log entry 11). -/
inductive RegName where
  | w (n : Fin 31)
  | x (n : Fin 31)
  | wsp
  | sp
  | wzr
  | xzr
  deriving DecidableEq, Repr

/-- The nine extension names of the assembler (30_encoding.md R81): LSL and the members of ExtendType
(90_conflicts.md C4). -/
inductive ExtendName where
  | lsl
  | named (ext : ExtendType)
  deriving DecidableEq, Repr

/-- A parsed statement `SUB <d>, <n>, <m> {, <extend> {#<amount>}}` (30_encoding.md R80 to R82). -/
structure AsmStmt where
  d : RegName
  n : RegName
  m : RegName
  extend : Option ExtendName
  amount : Option Nat
  deriving DecidableEq, Repr

/-! ### Names to numbers -/

/-- `<Wd|WSP>`, `<Wn|WSP>` (is64 false) or `<Xd|SP>`, `<Xn|SP>` (is64 true) (30_encoding.md R81, R82). -/
def regOrSpNumber (is64 : Bool) : RegName → Option RegNum
  | .w n => if is64 then none else some n.castSucc
  | .wsp => if is64 then none else some 31
  | .x n => if is64 then some n.castSucc else none
  | .sp => if is64 then some 31 else none
  | .wzr | .xzr => none

/-- `<m>` after the width specifier X (isX true) or W (isX false): a register or the name ZR (30_encoding.md R82). -/
def regOrZrNumber (isX : Bool) : RegName → Option RegNum
  | .w n => if isX then none else some n.castSucc
  | .wzr => if isX then none else some 31
  | .x n => if isX then some n.castSucc else none
  | .xzr => if isX then some 31 else none
  | .wsp | .sp => none

/-- The extension that LSL spells: `option` 010 in the 32-bit encoding, 011 in the 64-bit one (30_encoding.md R83,
R84). -/
def lslExtend (is64 : Bool) : ExtendType := if is64 then .uxtx else .uxtw

/-- The width specifier of the second source is X: `<R>` at `option` x11 in the 64-bit encoding (30_encoding.md R82);
always W in the 32-bit one (R81). -/
def secondIsX (is64 : Bool) (ext : ExtendType) : Bool := is64 && (ext == .uxtx || ext == .sxtx)

/-- `<amount>` is in the range 0 to 4 (30_encoding.md R86). -/
def amountShift (a : Nat) : Option (Fin 8) := if h : a < 5 then some ⟨a, by omega⟩ else none

/-- The operand tail (30_encoding.md R85, R86): what may be omitted, where LSL may stand, and when an amount must. -/
def tailFields (is64 spReg : Bool) : Option ExtendName → Option Nat → Option (ExtendType × Fin 8)
  | none, none => if spReg then some (lslExtend is64, 0) else none
  | none, some _ => none
  | some .lsl, none => none
  | some .lsl, some a => if spReg then (amountShift a).map (fun shift => (lslExtend is64, shift)) else none
  | some (.named ext), a => (amountShift (a.getD 0)).map (fun shift => (ext, shift))

/-! ### Assembling (30_encoding.md R87) -/

/-- A statement read by the template of one encoding. -/
def assembleAs (is64 : Bool) (st : AsmStmt) : Option Instr :=
  match regOrSpNumber is64 st.d, regOrSpNumber is64 st.n with
  | some d, some n =>
    match tailFields is64 (decide (d = 31 ∨ n = 31)) st.extend st.amount with
    | some (ext, shift) => (regOrZrNumber (secondIsX is64 ext) st.m).map (fun m => subInstr is64 d n m ext shift)
    | none => none
  | _, _ => none

/-- A statement to its instruction: the destination and first source say the width; a mixed statement matches neither
template (30_encoding.md R87). -/
def assemble (st : AsmStmt) : Option Instr :=
  match assembleAs false st with
  | some i => some i
  | none => assembleAs true st

/-- A statement to its word (30_encoding.md R87). -/
def assembleWord (st : AsmStmt) : Option Word := (assemble st).map encodeWord

/-! ### Disassembling (30_encoding.md R85, R88) -/

/-- The name of a destination or first source. -/
def regOrSpName (is64 : Bool) (r : RegNum) : RegName :=
  if h : r.val < 31 then (if is64 then .x ⟨r.val, h⟩ else .w ⟨r.val, h⟩) else (if is64 then .sp else .wsp)

/-- The name of a second source. -/
def regOrZrName (isX : Bool) (r : RegNum) : RegName :=
  if h : r.val < 31 then (if isX then .x ⟨r.val, h⟩ else .w ⟨r.val, h⟩) else (if isX then .xzr else .wzr)

/-- The preferred tail (30_encoding.md R85); where `, LSL #0` may be omitted it is, and no `#0` is printed
(93_implementation_defined.md U10; log entry 11). -/
def preferredTail (is64 spReg : Bool) (ext : ExtendType) (shift : Fin 8) : Option ExtendName × Option Nat :=
  if ext = lslExtend is64 ∧ spReg = true then
    (if shift.val = 0 then (none, none) else (some .lsl, some shift.val))
  else (some (.named ext), if shift.val = 0 then none else some shift.val)

/-- The statement of an instruction's fields in one encoding. -/
def disassembleAs (is64 : Bool) (d n m : RegNum) (ext : ExtendType) (shift : Fin 8) : AsmStmt :=
  let tail := preferredTail is64 (decide (d = 31 ∨ n = 31)) ext shift
  { d := regOrSpName is64 d
    n := regOrSpName is64 n
    m := regOrZrName (secondIsX is64 ext) m
    extend := tail.1
    amount := tail.2 }

/-- The statement of an instruction. -/
def disassemble : Instr → AsmStmt
  | .sub32 d n m ext shift => disassembleAs false d n m ext shift
  | .sub64 d n m ext shift => disassembleAs true d n m ext shift

/-- The statement of a word; none for a word that is no valid instruction (30_encoding.md R88). -/
def disassembleWord (w : Word) : Option AsmStmt :=
  match decode w with
  | .ok i => some (disassemble i)
  | .error _ => none

/-! ### The printed text (30_encoding.md R81 to R86) -/

/-- A register operand's text. -/
def RegName.text : RegName → String
  | .w n => "W" ++ toString n.val
  | .x n => "X" ++ toString n.val
  | .wsp => "WSP"
  | .sp => "SP"
  | .wzr => "WZR"
  | .xzr => "XZR"

/-- An extension's text (30_encoding.md R83, R84). -/
def ExtendName.text : ExtendName → String
  | .lsl => "LSL"
  | .named .uxtb => "UXTB"
  | .named .uxth => "UXTH"
  | .named .uxtw => "UXTW"
  | .named .uxtx => "UXTX"
  | .named .sxtb => "SXTB"
  | .named .sxth => "SXTH"
  | .named .sxtw => "SXTW"
  | .named .sxtx => "SXTX"

/-- A statement's text, as the templates lay it out. -/
def AsmStmt.text (st : AsmStmt) : String :=
  "SUB " ++ st.d.text ++ ", " ++ st.n.text ++ ", " ++ st.m.text ++
    (match st.extend with
      | none => ""
      | some e => ", " ++ e.text) ++
    (match st.amount with
      | none => ""
      | some a => " #" ++ toString a)

end Sys2Proof.Machine
end

