-- ==== Sys2Proof/Safety.lean ====
section
/-!
DEFINITION. Runs and their results (70_reset_and_hazards.md R142 to R144; 60_exceptions.md R122), and the invariant of
a run. Every claim about a run carries the premise of 60_exceptions.md R125: no asynchronous exception is taken, or
every handler restores all state (log entry 10).
-/
namespace Sys2Proof.Machine

/-- What the host gets back (70_reset_and_hazards.md R142), or a run still going. -/
inductive RunResult where
  /-- Steps remain. -/
  | running (s : State)
  /-- The run has ended and this is its final state (70_reset_and_hazards.md R144). -/
  | final (s : State)
  /-- The faulted state, its mark set; never a final state (60_exceptions.md R122). -/
  | faulted (s : State)
  /-- The step was refused (00_scope.md R20). -/
  | refused (r : Refusal)
  deriving DecidableEq, Repr

/-- At most `k` steps from `s`, stopping at the end of the run, at a fault or at a refusal. -/
def runFor : Nat → State → RunResult
  | 0, s => if ended s then .final s else .running s
  | k + 1, s =>
    if ended s then .final s
    else
      match step s with
      | .next t => runFor k t
      | .fault f => .faulted (recordFault f s)
      | .refused r => .refused r

/-- What holds along every run: a legal placement (20_memory.md R52, R53), exactly PROGRAM's bytes populated (R51), no
fault mark, and the pc at a word of PROGRAM or at its end. -/
def Inv (s : State) : Prop :=
  s.faultMark = none ∧ placementOk s ∧
    s.mem.map Prod.fst = List.range' s.progBase.toNat (4 * s.progLen) ∧
    ∃ k, k ≤ s.progLen ∧ s.pc = programAddr k s

/-- The condition flags of a state. -/
def withFlags (n z c v : Bool) (s : State) : State :=
  { s with pstate := { s.pstate with n := n, z := z, c := c, v := v } }

/-- The state with another PSTATE.DIT. -/
def withDit (dit : Bool) (s : State) : State := { s with pstate := { s.pstate with dit := dit } }

/-- Apply a change of state to a next state; faults and refusals as they are. -/
def mapNext (f : State → State) : Host.Outcome State Fault Refusal → Host.Outcome State Fault Refusal
  | .next t => .next (f t)
  | .fault r => .fault r
  | .refused r => .refused r

end Sys2Proof.Machine
end

