-- ==== Sys2Proof/Certificates/Slice0/Obligations.lean ====
section
/-!
DEFINITION. The statements about the model. A docstring says which rule a statement formalises; where it rests on a
decision of the spec, on an inference the spec marks as its own, or on a choice of this model, it says which log entry.
-/
open Sys2Proof Sys2Proof.Machine

/-! ### Encoding -/

/-- Words written out bit by bit from the diagram (30_encoding.md, Worked encodings) decode to the instructions they
stand for; one with imm3 = 5 is undefined and one outside the class is not in the spec. -/
def Obligations.WorkedWordsDecode : Prop :=
  decode 0b01001011001000101000010000100000#32 = .ok (.sub32 0 1 2 .sxtb 1) ∧
  decode 0b11001011001000100000100000100000#32 = .ok (.sub64 0 1 2 .uxtb 2) ∧
  decode 0b11001011001000101110010000100000#32 = .ok (.sub64 0 1 2 .sxtx 1) ∧
  decode 0b01001011001000010100001111111111#32 = .ok (.sub32 31 31 1 .uxtw 0) ∧
  decode 0b11001011001111110110001111100011#32 = .ok (.sub64 3 31 31 .uxtx 0) ∧
  decode 0b11001011001000100111010000100000#32 = .error .undefined ∧
  decode 0b11101011001000100000000000100000#32 = .error .notInSpec

/-- The class test is the diagram's fixed bits 30:21, and the decoder has its four verdicts (30_encoding.md section 2,
marked derived there). -/
def Obligations.DecoderVerdictsFollowTheDiagram : Prop :=
  ∀ w : Word,
    (inClass w = true ↔ w.extractLsb' 21 10 = 0b1001011001#10) ∧
    (decode w = .error .notInSpec ↔ w.extractLsb' 21 10 ≠ 0b1001011001#10) ∧
    (decode w = .error .undefined ↔
      w.extractLsb' 21 10 = 0b1001011001#10 ∧ 4 < (w.extractLsb' 10 3).toNat) ∧
    ((∃ i, decode w = .ok i) ↔
      w.extractLsb' 21 10 = 0b1001011001#10 ∧ (w.extractLsb' 10 3).toNat ≤ 4) ∧
    decode w ≠ .error .tooFewBytes

/-- 30_encoding.md R75: in a word of the class the one illegal case is imm3 above 4; it decodes to Undefined whatever
the other fields are, and the step that fetches it faults whatever the registers are. The assembler agrees. -/
def Obligations.ShiftAboveFourIsUndefined : Prop :=
  (∀ w : Word, w.extractLsb' 21 10 = 0b1001011001#10 →
    (4 < (w.extractLsb' 10 3).toNat →
      decode w = .error .undefined ∧ ∀ s : State, fetch s = .ok w → step s = .fault (.undefined s.pc w)) ∧
    ((w.extractLsb' 10 3).toNat ≤ 4 → ∃ i, decode w = .ok i)) ∧
  ∀ a : Nat, (amountShift a).isSome = true ↔ a ≤ 4

/-- 30_encoding.md R71: d, n and m are the unsigned values of their 5-bit fields, and datasize is 64 for sf = 1 and 32
for sf = 0: the decoded instruction's meaning runs with exactly these. -/
def Obligations.OperandFieldsAreUnsigned : Prop :=
  ∀ w : Word, w.extractLsb' 21 10 = 0b1001011001#10 → (w.extractLsb' 10 3).toNat ≤ 4 →
    ∃ (i : Instr) (d n m : RegNum),
      d.val = w.toNat % 32 ∧ n.val = w.toNat / 2 ^ 5 % 32 ∧ m.val = w.toNat / 2 ^ 16 % 32 ∧ decode w = .ok i ∧
      ∀ s : State, exec i s =
        subExtended (if w.toNat / 2 ^ 31 % 2 = 1 then 64 else 32) w d n m
          (decodeRegExtend (w.extractLsb' 13 3)) (w.extractLsb' 10 3).toFin s

/-- Decoding the stored bytes of a well-formed instruction gives that instruction and leaves the bytes after it. -/
def Obligations.DecodeOfEncode : Prop :=
  ∀ i : Instr, i.wf = true → decode (encodeWord i) = .ok i ∧
    ∀ rest : List Byte, decodeBytes (encode i ++ rest) = .ok (i, rest)

/-- A decoded word is the word of the decoded instruction, so no two words decode alike, and what is decoded is
well formed. -/
def Obligations.EncodeOfDecode : Prop :=
  ∀ (w : Word) (i : Instr), decode w = .ok i → encodeWord i = w ∧ i.wf = true

/-- The assembler's sum for a word (30_encoding.md section 3, marked derived there). -/
def Obligations.EncodedWordIsTheSumOfItsFields : Prop :=
  ∀ (is64 : Bool) (d n m : RegNum) (ext : ExtendType) (shift : Fin 8),
    (encodeWord (subInstr is64 d n m ext shift)).toNat =
      (if is64 then 2 ^ 31 else 0) + 0x4B200000 + m.val * 2 ^ 16 + (encodeRegExtend ext).toNat * 2 ^ 13 +
        shift.val * 2 ^ 10 + n.val * 2 ^ 5 + d.val

/-- The lowest and the highest valid word (30_encoding.md section 2, the census, marked derived there): every word that
decodes to an instruction lies between them, and both do decode. -/
def Obligations.ValidWordsLieBetweenLowestAndHighest : Prop :=
  (∀ (w : Word) (i : Instr), decode w = .ok i → 0x4B200000 ≤ w.toNat ∧ w.toNat ≤ 0xCB3FF3FF) ∧
  decode 0x4B200000#32 = .ok (.sub32 0 0 0 .uxtb 0) ∧ decode 0xCB3FF3FF#32 = .ok (.sub64 31 31 31 .sxtx 4)

/-! ### Arithmetic -/

/-- `AddWithCarry(x, NOT(y), '1')` is subtraction modulo 2^N, at every width (40_sub_extended_register.md section 4,
marked derived there; the body of AddWithCarry is log entry 8). -/
def Obligations.AddWithCarryOfNotIsSubtraction : Prop :=
  ∀ (N : Nat) (a b : BitVec N),
    ((addWithCarry a (~~~b) true).1.toNat : Int) = ((a.toNat : Int) - (b.toNat : Int)) % (2 : Int) ^ N

/-- The four flags that AddWithCarry gives for a subtraction, at every width above 0 (log entry 8): N the sign of the
result, Z equality, C no borrow, V signed overflow. -/
def Obligations.AddWithCarryFlagsOfSubtraction : Prop :=
  ∀ (N : Nat) (a b : BitVec N), 0 < N →
    (addWithCarry a (~~~b) true).2.getLsbD 3 = (a - b).msb ∧
    ((addWithCarry a (~~~b) true).2.getLsbD 2 = true ↔ a = b) ∧
    ((addWithCarry a (~~~b) true).2.getLsbD 1 = true ↔ b.toNat ≤ a.toNat) ∧
    ((addWithCarry a (~~~b) true).2.getLsbD 0 = true ↔
      a.toInt - b.toInt < -(2 : Int) ^ (N - 1) ∨ (2 : Int) ^ (N - 1) ≤ a.toInt - b.toInt)

/-- ExtendReg in closed form, 64-bit encoding (40_sub_extended_register.md section 4, marked derived there; the body of
ExtendReg is log entry 9): extend the selected low part, then shift left, dropping the bits past bit 63. -/
def Obligations.ExtendRegClosedForm64 : Prop :=
  ∀ (m : RegNum) (shift : Nat) (s : State), shift ≤ 4 →
    let v : BitVec 64 := if m = 31 then 0#64 else xRead m 64 s
    extendReg m (decodeRegExtend 0b000#3) shift 64 s = (v.setWidth 8).setWidth 64 <<< shift ∧
    extendReg m (decodeRegExtend 0b001#3) shift 64 s = (v.setWidth 16).setWidth 64 <<< shift ∧
    extendReg m (decodeRegExtend 0b010#3) shift 64 s = (v.setWidth 32).setWidth 64 <<< shift ∧
    extendReg m (decodeRegExtend 0b011#3) shift 64 s = v <<< shift ∧
    extendReg m (decodeRegExtend 0b100#3) shift 64 s = (v.setWidth 8).signExtend 64 <<< shift ∧
    extendReg m (decodeRegExtend 0b101#3) shift 64 s = (v.setWidth 16).signExtend 64 <<< shift ∧
    extendReg m (decodeRegExtend 0b110#3) shift 64 s = (v.setWidth 32).signExtend 64 <<< shift ∧
    extendReg m (decodeRegExtend 0b111#3) shift 64 s = v <<< shift

/-- ExtendReg in closed form, 32-bit encoding (40_sub_extended_register.md section 4, marked derived there; log entry
9): the word and doubleword extensions are the plain shifted word. -/
def Obligations.ExtendRegClosedForm32 : Prop :=
  ∀ (m : RegNum) (shift : Nat) (s : State), shift ≤ 4 →
    let v : BitVec 32 := if m = 31 then 0#32 else (xRead m 64 s).setWidth 32
    extendReg m (decodeRegExtend 0b000#3) shift 32 s = (v.setWidth 8).setWidth 32 <<< shift ∧
    extendReg m (decodeRegExtend 0b001#3) shift 32 s = (v.setWidth 16).setWidth 32 <<< shift ∧
    extendReg m (decodeRegExtend 0b010#3) shift 32 s = v <<< shift ∧
    extendReg m (decodeRegExtend 0b011#3) shift 32 s = v <<< shift ∧
    extendReg m (decodeRegExtend 0b100#3) shift 32 s = (v.setWidth 8).signExtend 32 <<< shift ∧
    extendReg m (decodeRegExtend 0b101#3) shift 32 s = (v.setWidth 16).signExtend 32 <<< shift ∧
    extendReg m (decodeRegExtend 0b110#3) shift 32 s = v <<< shift ∧
    extendReg m (decodeRegExtend 0b111#3) shift 32 s = v <<< shift

/-! ### The two instructions: result, completion, frame -/

/-- SUB (extended register), 32-bit, completes for every operand with shift at most 4 and in every state, and its next
state is this one: the difference modulo 2^32, zero-extended into the destination (the upper half of x[d] is log entry
6), pc + 4 (log entry 7), and nothing else. -/
def Obligations.Sub32CompletesWithTheDifference : Prop :=
  ∀ (d n m : RegNum) (ext : ExtendType) (shift : Fin 8) (s : State), shift.val ≤ 4 →
    let operand1 : BitVec 32 := if n = 31 then s.sp.setWidth 32 else xRead n 32 s
    let operand2 : BitVec 32 := extendReg m ext shift.val 32 s
    let result : BitVec 64 := BitVec.ofInt 64 (((operand1.toNat : Int) - (operand2.toNat : Int)) % 2 ^ 32)
    exec (.sub32 d n m ext shift) s =
      .next (if h : d.val < 31 then { s with x := s.x.set d.val result, pc := s.pc + 4#64 }
        else { s with sp := result, pc := s.pc + 4#64 })

/-- SUB (extended register), 64-bit, completes for every operand with shift at most 4 and in every state, and its next
state is this one: the difference modulo 2^64 in the destination, pc + 4 (log entry 7), and nothing else. -/
def Obligations.Sub64CompletesWithTheDifference : Prop :=
  ∀ (d n m : RegNum) (ext : ExtendType) (shift : Fin 8) (s : State), shift.val ≤ 4 →
    let operand1 : BitVec 64 := if n = 31 then s.sp else xRead n 64 s
    let operand2 : BitVec 64 := extendReg m ext shift.val 64 s
    let result : BitVec 64 := BitVec.ofInt 64 (((operand1.toNat : Int) - (operand2.toNat : Int)) % 2 ^ 64)
    exec (.sub64 d n m ext shift) s =
      .next (if h : d.val < 31 then { s with x := s.x.set d.val result, pc := s.pc + 4#64 }
        else { s with sp := result, pc := s.pc + 4#64 })

/-- Where each instruction traps, and that it does nothing else: with a shift of 5, 6 or 7 its meaning is the fault
with its pc and word, and it is never refused (40_sub_extended_register.md section 5, marked derived there). -/
def Obligations.ExecStopsOnlyOnTheShift : Prop :=
  ∀ (is64 : Bool) (d n m : RegNum) (ext : ExtendType) (shift : Fin 8) (s : State),
    (4 < shift.val → exec (subInstr is64 d n m ext shift) s =
      .fault (.undefined s.pc (encodeWord (subInstr is64 d n m ext shift)))) ∧
    (shift.val ≤ 4 → ∃ t, exec (subInstr is64 d n m ext shift) s = .next t)

/-- The frame of both instructions (10_state.md section 6, marked derived there): every register but x[d], the stack
pointer unless d = 31, NZCV and DIT, the fault mark, every byte of memory and the placement are as before. -/
def Obligations.SubFrame : Prop :=
  ∀ (is64 : Bool) (d n m : RegNum) (ext : ExtendType) (shift : Fin 8) (s t : State),
    exec (subInstr is64 d n m ext shift) s = .next t →
      (∀ k : RegNum, k ≠ d → xRead k 64 t = xRead k 64 s) ∧
      (d = 31 → t.x = s.x) ∧ (d ≠ 31 → t.sp = s.sp) ∧
      t.pstate = s.pstate ∧ t.faultMark = s.faultMark ∧
      (∀ a : XWord, t.mem.readByte a = s.mem.readByte a) ∧
      t.progBase = s.progBase ∧ t.progLen = s.progLen

/-- With Rm = 31 the second source is the zero register in both encodings, whatever the extension and the shift, so the
first source is copied (10_state.md section 1 and 90_conflicts.md C3; log entry 12 for the 32-bit encoding). -/
def Obligations.ZeroRegisterSourceCopiesTheFirst : Prop :=
  ∀ (d n : RegNum) (ext : ExtendType) (shift : Fin 8) (s : State), shift.val ≤ 4 →
    let a : BitVec 64 := if n = 31 then s.sp else xRead n 64 s
    (∃ t, exec (.sub64 d n 31 ext shift) s = .next t ∧ (if d = 31 then t.sp else xRead d 64 t) = a) ∧
    (∃ t, exec (.sub32 d n 31 ext shift) s = .next t ∧
      (if d = 31 then t.sp else xRead d 64 t) = (a.setWidth 32).setWidth 64)

/-- UXTX, SXTX and SXTW in the 32-bit encoding behave as UXTW with the same shift (90_conflicts.md C5; log entry 9). -/
def Obligations.FullWidthExtendsAgreeAt32 : Prop :=
  ∀ (d n m : RegNum) (ext : ExtendType) (shift : Fin 8) (s : State), shift.val ≤ 4 →
    ext = .uxtx ∨ ext = .sxtx ∨ ext = .sxtw →
      ∃ t, exec (.sub32 d n m ext shift) s = .next t ∧ exec (.sub32 d n m .uxtw shift) s = .next t

/-- The 32-bit encoding ignores bits 63:32 of its sources: from two states whose named sources agree in their low 32
bits it leaves the same destination (40_sub_extended_register.md section 1; that W names the low half is log entry 6). -/
def Obligations.Sub32IgnoresUpperHalves : Prop :=
  ∀ (d n m : RegNum) (ext : ExtendType) (shift : Fin 8) (s s' : State), shift.val ≤ 4 →
    (if n = 31 then s.sp else xRead n 64 s).setWidth 32 = (if n = 31 then s'.sp else xRead n 64 s').setWidth 32 →
    (xRead m 64 s).setWidth 32 = (xRead m 64 s').setWidth 32 →
      ∃ t t', exec (.sub32 d n m ext shift) s = .next t ∧ exec (.sub32 d n m ext shift) s' = .next t' ∧
        (if d = 31 then t.sp else xRead d 64 t) = (if d = 31 then t'.sp else xRead d 64 t')

/-- The 64-bit encoding looks only at the low 8, 16 or 32 bits of x[m] under a byte, halfword or word extension
(40_sub_extended_register.md section 1; log entry 9). -/
def Obligations.Sub64LooksOnlyAtTheExtendedPart : Prop :=
  ∀ (d n m : RegNum) (ext : ExtendType) (shift : Fin 8) (s s' : State), shift.val ≤ 4 →
    (if n = 31 then s.sp else xRead n 64 s) = (if n = 31 then s'.sp else xRead n 64 s') →
    (xRead m 64 s).setWidth (extendLen ext) = (xRead m 64 s').setWidth (extendLen ext) →
      ∃ t t', exec (.sub64 d n m ext shift) s = .next t ∧ exec (.sub64 d n m ext shift) s' = .next t' ∧
        (if d = 31 then t.sp else xRead d 64 t) = (if d = 31 then t'.sp else xRead d 64 t')

/-- 40_sub_extended_register.md R104: all reads precede the write. Whatever registers the fields share, the destination
receives the difference of the values from before the instruction; then the rule's own cases. -/
def Obligations.ReadsPrecedeTheWrite : Prop :=
  (∀ (d n m : RegNum) (ext : ExtendType) (shift : Fin 8) (s : State), shift.val ≤ 4 →
    (∃ t, exec (.sub64 d n m ext shift) s = .next t ∧ (if d = 31 then t.sp else xRead d 64 t) =
      (if n = 31 then s.sp else xRead n 64 s) - extendReg m ext shift.val 64 s) ∧
    (∃ t, exec (.sub32 d n m ext shift) s = .next t ∧ (if d = 31 then t.sp else xRead d 64 t).setWidth 32 =
      (if n = 31 then s.sp.setWidth 32 else xRead n 32 s) - extendReg m ext shift.val 32 s)) ∧
  ∀ s : State,
    (∃ t, exec (.sub64 0 0 1 .uxtw 0) s = .next t ∧
      xRead 0 64 t = xRead 0 64 s - (xRead 1 32 s).setWidth 64) ∧
    (∃ t, exec (.sub64 1 0 0 .uxtx 0) s = .next t ∧ xRead 1 64 t = 0#64) ∧
    (∃ t, exec (.sub64 1 0 0 .uxtb 0) s = .next t ∧ xRead 1 64 t = xRead 0 64 s &&& ~~~0xFF#64) ∧
    (∃ t, exec (.sub64 31 31 1 .uxtx 0) s = .next t ∧ t.sp = s.sp - xRead 1 64 s) ∧
    (∃ t, exec (.sub64 0 31 31 .uxtx 0) s = .next t ∧ xRead 0 64 t = s.sp)

/-! ### Flags and DIT -/

/-- 10_state.md R39: neither instruction reads or writes N, Z, C, V: changing them before changes nothing but them
after, and a next state carries them unchanged; so also for a whole step. -/
def Obligations.FlagsNeitherReadNorWritten : Prop :=
  (∀ (i : Instr) (n z c v : Bool) (s : State),
    exec i (withFlags n z c v s) = mapNext (withFlags n z c v) (exec i s) ∧
    ∀ t, exec i s = .next t →
      t.pstate.n = s.pstate.n ∧ t.pstate.z = s.pstate.z ∧ t.pstate.c = s.pstate.c ∧ t.pstate.v = s.pstate.v) ∧
  ∀ (n z c v : Bool) (s : State), step (withFlags n z c v s) = mapNext (withFlags n z c v) (step s)

/-- A step's result is the same for DIT = 0 and DIT = 1, and DIT is carried unchanged (10_state.md section 5 and
70_reset_and_hazards.md section 4: decision D10). -/
def Obligations.DitChangesNoResult : Prop :=
  ∀ (dit : Bool) (s : State), step (withDit dit s) = mapNext (withDit dit) (step s) ∧
    ∀ t, step s = .next t → t.pstate.dit = s.pstate.dit

/-! ### Memory and fetch -/

/-- A placed program is fetched word for word, and its bytes lie little-endian (20_memory.md section 2: decisions D4
and D5; log entries 2 and 4). A program that fills the whole address space is left out (log entry 5). -/
def Obligations.FetchReadsThePlacedProgram : Prop :=
  ∀ (base : XWord) (program : List Word) (s : State) (k : Nat) (hk : k < program.length),
    base.toNat % 4 = 0 → base.toNat + 4 * program.length ≤ 2 ^ 64 → 4 * program.length < 2 ^ 64 →
      fetch { loadProgram base program s with pc := base + BitVec.ofNat 64 (4 * k) } = .ok program[k] ∧
      ∀ j : Nat, j < 4 → (loadProgram base program s).mem.readByte (base + BitVec.ofNat 64 (4 * k + j)) =
        some (program[k].extractLsb' (8 * j) 8)

/-- A fetch at a pc that is neither a word of PROGRAM nor its end is refused (20_memory.md section 2: decision D5). -/
def Obligations.FetchOutsideProgramIsRefused : Prop :=
  ∀ s : State, s.faultMark = none → placementOk s → (∀ k, k ≤ s.progLen → s.pc ≠ programAddr k s) →
    step s = .refused (.fetchOutsideProgram s.pc)

/-- A placement the host may not supply is refused: a misaligned PROG_BASE, or a program past 2^64 (20_memory.md section
2: decisions D5 and D13). -/
def Obligations.BadPlacementIsRefused : Prop :=
  ∀ s : State, s.faultMark = none →
    (s.progBase.toNat % 4 ≠ 0 → step s = .refused (.misalignedProgBase s.progBase)) ∧
    (s.progBase.toNat % 4 = 0 → 2 ^ 64 < s.progBase.toNat + 4 * s.progLen →
      step s = .refused (.programPastTop s.progBase s.progLen))

/-! ### The step -/

/-- A step runs the decoded instruction: when the run has not ended, no fault is marked, the placement is legal, the pc
is at a word of PROGRAM and the four bytes there decode to an instruction, the step is that instruction's meaning and
adds nothing around it (70_reset_and_hazards.md section 2, marked derived there). -/
def Obligations.StepRunsTheDecodedInstruction : Prop :=
  ∀ (s : State) (k : Nat) (bytes : List Byte) (i : Instr),
    s.faultMark = none → placementOk s → s.pc ≠ programEnd s → k < s.progLen → s.pc = programAddr k s →
    memRead s.mem s.pc 4 = some bytes → decodeBytes bytes = .ok (i, []) → step s = exec i s

/-- A fetched word outside the class is refused, not faulted (30_encoding.md section 2: decision D1). -/
def Obligations.UnspecifiedWordIsRefused : Prop :=
  ∀ (s : State) (w : Word), fetch s = .ok w → w.extractLsb' 21 10 ≠ 0b1001011001#10 →
    step s = .refused (.notInSpec s.pc w)

/-- What a step leaves alone over all instructions (20_memory.md section 3, marked derived there; pc + 4 is log entry
7): memory, the placement, PSTATE and the absence of a fault mark; and it advances the pc by 4. -/
def Obligations.StepLeavesProgramAndPstate : Prop :=
  ∀ s t : State, step s = .next t →
    t.mem = s.mem ∧ t.progBase = s.progBase ∧ t.progLen = s.progLen ∧ t.pstate = s.pstate ∧
    s.faultMark = none ∧ t.faultMark = none ∧ t.pc = s.pc + 4#64

/-! ### The exception -/

/-- 60_exceptions.md R120: Undefined is the only fault, raised exactly when the fetched word is of the class with imm3 5,
6 or 7, whatever the other fields and the registers, and it records the pc and the word. -/
def Obligations.UndefinedIsTheOnlyFault : Prop :=
  ∀ (s : State) (f : Fault), s.faultMark = none →
    (step s = .fault f ↔
      ∃ w, fetch s = .ok w ∧ w.extractLsb' 21 10 = 0b1001011001#10 ∧
        ((w.extractLsb' 10 3).toNat = 5 ∨ (w.extractLsb' 10 3).toNat = 6 ∨ (w.extractLsb' 10 3).toNat = 7) ∧
        f = .undefined s.pc w)

/-- A run that meets an undefined word ends in the faulted state: everything as before that instruction, the mark set
(60_exceptions.md section 1: decision D8). -/
def Obligations.UndefinedWordEndsTheRunFaulted : Prop :=
  ∀ (s : State) (w : Word) (k : Nat), fetch s = .ok w → decode w = .error .undefined →
    runFor (k + 1) s = .faulted { s with faultMark := some { pc := s.pc, word := w } }

/-- A faulted state takes no step, and no run from it reaches a final state (60_exceptions.md section 1: decision D8). -/
def Obligations.FaultedStateIsQuiescent : Prop :=
  ∀ (s : State) (mark : FaultMark), s.faultMark = some mark →
    step s = .fault (.undefined mark.pc mark.word) ∧ ∀ (k : Nat) (t : State), runFor k s ≠ .final t

/-! ### Reset, runs and the invariant -/

/-- What State.reset holds. The spec gives no fault mark and pc = PROG_BASE; every other value is this model's choice
(log entries 1 and 2). -/
def Obligations.ResetValues : Prop :=
  State.reset.faultMark = none ∧ State.reset.pc = State.reset.progBase ∧
  (∀ n : RegNum, xRead n 64 State.reset = 0#64) ∧ State.reset.sp = 0#64 ∧
  State.reset.pstate = { n := false, z := false, c := false, v := false, dit := false } ∧
  (∀ a : XWord, State.reset.mem.readByte a = none) ∧
  State.reset.progBase = 0#64 ∧ State.reset.progLen = 0

/-- The invariant of a run holds after reset (of this model's empty program: log entry 2). -/
def Obligations.ResetMeetsTheRunInvariant : Prop := Inv State.reset

/-- The invariant of a run holds of every state into which the host places a legal program (70_reset_and_hazards.md
section 1: decisions D5 and D13). -/
def Obligations.PlacementMeetsTheRunInvariant : Prop :=
  ∀ (base : XWord) (program : List Word) (s : State),
    base.toNat % 4 = 0 → base.toNat + 4 * program.length ≤ 2 ^ 64 → Inv (loadProgram base program s)

/-- Every step keeps the invariant of a run: a legal placement, exactly PROGRAM's bytes populated, no fault mark, and
the pc at a word of PROGRAM or at its end, so a multiple of 4 (20_memory.md section 2, marked derived there). -/
def Obligations.StepKeepsTheRunInvariant : Prop :=
  ∀ s t : State, Inv s → step s = .next t → Inv t ∧ t.pc.toNat % 4 = 0

/-- Under the invariant the only refusals are the end of the run and a word outside the class: no run leaves PROGRAM or
misses one of its bytes (60_exceptions.md section 1: decision D1). -/
def Obligations.RunsNeverFetchOutsideProgram : Prop :=
  ∀ s : State, Inv s →
    (s.pc ≠ programEnd s → ∃ w, fetch s = .ok w) ∧
    ∀ r : Refusal, step s = .refused r →
      (s.pc = programEnd s ∧ r = .runEnded s.pc) ∨
        ∃ w, fetch s = .ok w ∧ r = .notInSpec s.pc w ∧ w.extractLsb' 21 10 ≠ 0b1001011001#10

/-- At the end of a run there is no step, and the run's final state is that state (70_reset_and_hazards.md section 2:
decision D5; that the step answers the refusal runEnded is log entry 5). -/
def Obligations.EndedRunTakesNoStep : Prop :=
  ∀ s : State, ended s → step s = .refused (.runEnded s.pc) ∧ ∀ k, runFor k s = .final s

/-- Straight-line termination (70_reset_and_hazards.md section 2, marked derived there): from the first word of a placed
program whose L words all decode to instructions, the run is at word j after j < L steps and ends after exactly L. -/
def Obligations.RunEndsAfterExactlyItsLength : Prop :=
  ∀ s : State, Inv s → s.pc = s.progBase → 4 * s.progLen < 2 ^ 64 →
    (∀ k, k < s.progLen → ∃ w i, programWord k s = some w ∧ decode w = .ok i) →
      (∀ j, j < s.progLen → ∃ t, runFor j s = .running t ∧ t.pc = programAddr j s) ∧
      ∃ t, Host.Core.run Sys2Proof.core s.progLen s = .next t ∧ ended t ∧
        ∀ j, s.progLen ≤ j → runFor j s = .final t

/-! ### The assembler -/

/-- Assembling the printed statement of a well-formed instruction gives back the instruction and its word (30_encoding.md
section 3, marked derived there; the printing choices are log entry 11). -/
def Obligations.AssembleOfDisassemble : Prop :=
  ∀ i : Instr, i.wf = true → assemble (disassemble i) = some i ∧
    (disassembleWord (encodeWord i)).bind assembleWord = some (encodeWord i)

/-- 30_encoding.md R86: the amount is in the imm3 field, 0 to 4, default 0; absent when the extend is absent, required
with LSL, optional with any other extend. -/
def Obligations.AmountRule : Prop :=
  (∀ (st : AsmStmt) (i : Instr), assemble st = some i →
    st.amount.getD 0 ≤ 4 ∧ ((encodeWord i).extractLsb' 10 3).toNat = st.amount.getD 0 ∧
    (st.extend = none → st.amount = none) ∧
    (st.extend = some .lsl → st.amount.isSome = true)) ∧
  ∀ (st : AsmStmt) (ext : ExtendType), st.extend = some (.named ext) →
    assemble { st with amount := none } = assemble { st with amount := some 0 }

/-- 30_encoding.md R83 and R84: the option values of the extension names in each encoding; LSL and an omitted extend
only where Rd or Rn is 31, and only as option 010 (32-bit) or 011 (64-bit), omitted only with imm3 000; there both are
accepted and LSL is preferred to the plain name; everywhere else the extend is written and is the table's name. -/
def Obligations.ExtendSpellings : Prop :=
  (decodeRegExtend 0b000#3 = .uxtb ∧ decodeRegExtend 0b001#3 = .uxth ∧ decodeRegExtend 0b010#3 = .uxtw ∧
    decodeRegExtend 0b011#3 = .uxtx ∧ decodeRegExtend 0b100#3 = .sxtb ∧ decodeRegExtend 0b101#3 = .sxth ∧
    decodeRegExtend 0b110#3 = .sxtw ∧ decodeRegExtend 0b111#3 = .sxtx) ∧
  ∀ (is64 : Bool) (d n m : RegNum) (ext : ExtendType) (shift : Fin 8),
    (∀ st : AsmStmt, assemble st = some (subInstr is64 d n m ext shift) →
      decodeRegExtend ((encodeWord (subInstr is64 d n m ext shift)).extractLsb' 13 3) = ext ∧
      (∀ e, st.extend = some (.named e) → e = ext) ∧
      (st.extend = some .lsl → (d = 31 ∨ n = 31) ∧ ext = if is64 then .uxtx else .uxtw) ∧
      (st.extend = none → (d = 31 ∨ n = 31) ∧ (ext = if is64 then .uxtx else .uxtw) ∧ shift = 0)) ∧
    (d = 31 ∨ n = 31 → shift.val ≤ 4 → ext = (if is64 then .uxtx else .uxtw) →
      let st := disassemble (subInstr is64 d n m ext shift)
      assemble { st with extend := some .lsl, amount := some shift.val } = some (subInstr is64 d n m ext shift) ∧
      (shift = 0 → assemble { st with extend := none, amount := none } = some (subInstr is64 d n m ext shift)) ∧
      st.extend ≠ some (.named ext)) ∧
    (¬ ((d = 31 ∨ n = 31) ∧ ext = if is64 then .uxtx else .uxtw) →
      (disassemble (subInstr is64 d n m ext shift)).extend = some (.named ext))

/-- The width of the second source's name agrees with the extension (30_encoding.md section 3, marked derived there): an
X name or XZR in the 64-bit encoding with UXTX or SXTX, a W name or WZR otherwise. -/
def Obligations.SecondSourceNameAgreesWithExtend : Prop :=
  ∀ (st : AsmStmt) (is64 : Bool) (d n m : RegNum) (ext : ExtendType) (shift : Fin 8),
    assemble st = some (subInstr is64 d n m ext shift) →
      if is64 = true ∧ (ext = .uxtx ∨ ext = .sxtx) then st.m = .xzr ∧ m = 31 ∨ ∃ k, st.m = .x k ∧ m.val = k.val
      else st.m = .wzr ∧ m = 31 ∨ ∃ k, st.m = .w k ∧ m.val = k.val
end

