-- ==== Sys2Proof/Laws/Decode.lean ====
section
/-!
SUPPORT. The decoder's inversion lemma, and the fields of an encoded word.
-/
namespace Sys2Proof

@[simp] theorem decodeRegExtend_encodeRegExtend (ext : ExtendType) :
    decodeRegExtend (encodeRegExtend ext) = ext := by cases ext <;> rfl

@[simp] theorem encodeRegExtend_decodeRegExtend (op : BitVec 3) : encodeRegExtend (decodeRegExtend op) = op := by
  revert op; decide

/-! ### The fields of an encoded word (30_encoding.md R66) -/

section Fields
variable (sf : BitVec 1) (rm : BitVec 5) (option imm3 : BitVec 3) (rn rd : BitVec 5)

@[simp] theorem fieldRd_encodeFields : fieldRd (encodeFields sf rm option imm3 rn rd) = rd := by
  ext i hi
  simp only [fieldRd, encodeFields, BitVec.getElem_extractLsb', BitVec.getLsbD_append]
  simp [hi]

@[simp] theorem fieldRn_encodeFields : fieldRn (encodeFields sf rm option imm3 rn rd) = rn := by
  ext i hi
  simp only [fieldRn, encodeFields, BitVec.getElem_extractLsb', BitVec.getLsbD_append]
  simp [hi]

@[simp] theorem fieldImm3_encodeFields : fieldImm3 (encodeFields sf rm option imm3 rn rd) = imm3 := by
  ext i hi
  simp only [fieldImm3, encodeFields, BitVec.getElem_extractLsb', BitVec.getLsbD_append]
  simp [hi, show ¬ 10 + i < 5 by omega, show ¬ 10 + i - 5 < 5 by omega, show 10 + i - 5 - 5 = i by omega]

@[simp] theorem fieldOption_encodeFields : fieldOption (encodeFields sf rm option imm3 rn rd) = option := by
  ext i hi
  simp only [fieldOption, encodeFields, BitVec.getElem_extractLsb', BitVec.getLsbD_append]
  simp [hi, show ¬ 13 + i < 5 by omega, show ¬ 13 + i - 5 < 5 by omega, show ¬ 13 + i - 5 - 5 < 3 by omega,
    show 13 + i - 5 - 5 - 3 = i by omega]

@[simp] theorem fieldRm_encodeFields : fieldRm (encodeFields sf rm option imm3 rn rd) = rm := by
  ext i hi
  simp only [fieldRm, encodeFields, BitVec.getElem_extractLsb', BitVec.getLsbD_append]
  simp [hi, show ¬ 16 + i < 5 by omega, show ¬ 16 + i - 5 < 5 by omega, show ¬ 16 + i - 5 - 5 < 3 by omega,
    show ¬ 16 + i - 5 - 5 - 3 < 3 by omega, show 16 + i - 5 - 5 - 3 - 3 = i by omega]

@[simp] theorem fieldSf_encodeFields : fieldSf (encodeFields sf rm option imm3 rn rd) = sf.getLsbD 0 := by
  simp only [fieldSf, encodeFields, BitVec.getLsbD_append]
  simp

end Fields

/-- What the decoder answers (30_encoding.md R70): an instruction only for a word of the class with `imm3 <= 4`, and
then the one whose operands are the fields. -/
theorem decode_ok {w : Word} {i : Instr} (h : decode w = .ok i) :
    inClass w = true ∧ (fieldImm3 w).toNat ≤ 4 ∧
      i = subInstr (fieldSf w) (fieldRd w).toFin (fieldRn w).toFin (fieldRm w).toFin
        (decodeRegExtend (fieldOption w)) (fieldImm3 w).toFin := by
  unfold decode at h
  split at h
  · split at h
    · cases h
    · next hc hi => exact ⟨hc, Nat.le_of_not_lt hi, by simpa using h.symm⟩
  · cases h

/-- A word is rejected as undefined only in the class and with `imm3 > 4` (30_encoding.md R75). -/
theorem decode_undefined {w : Word} (h : decode w = .error .undefined) :
    inClass w = true ∧ 4 < (fieldImm3 w).toNat := by
  unfold decode at h
  split at h
  · split at h
    · next hc hi => exact ⟨hc, hi⟩
    · cases h
  · cases h

/-- On a whole word the decoder never asks for more bytes. -/
theorem decode_ne_tooFewBytes (w : Word) : decode w ≠ .error .tooFewBytes := by
  unfold decode
  split
  · split <;> simp
  · simp

end Sys2Proof
end

