-- ==== Sys2Proof/Laws/Memory.lean ====
section
/-!
SUPPORT. Memory: read after write, and every operation keeps the canonical form.
-/
namespace Sys2Proof.Machine

/-- Reading the written address gives the byte written. -/
@[simp] theorem Memory.readByte_writeByte_same (m : Memory) (a : XWord) (b : Byte) :
    (m.writeByte a b).readByte a = some b := by
  induction m with
  | nil => simp [Memory.writeByte, Memory.readByte]
  | cons c m ih =>
    unfold Memory.writeByte
    split
    · simp [Memory.readByte]
    · split
      · simp [Memory.readByte]
      · next h => simp [Memory.readByte, h, ih]

/-- A write leaves every other address alone. -/
theorem Memory.readByte_writeByte_other (m : Memory) {a a' : XWord} (h : a' ≠ a) (b : Byte) :
    (m.writeByte a b).readByte a' = m.readByte a' := by
  have hn : a.toNat ≠ a'.toNat := fun e => h (BitVec.eq_of_toNat_eq e.symm)
  induction m with
  | nil => simp [Memory.writeByte, Memory.readByte, hn]
  | cons c m ih =>
    unfold Memory.writeByte
    split
    · simp [Memory.readByte, hn]
    · split
      · next h' => simp [Memory.readByte, h', hn]
      · simp [Memory.readByte, ih]

/-- The addresses after a write are the old ones and the written one. -/
theorem Memory.mem_writeByte {m : Memory} {a : XWord} {b : Byte} {c : Host.Cell} (h : c ∈ m.writeByte a b) :
    c = (a.toNat, b) ∨ c ∈ m := by
  induction m with
  | nil => exact .inl (by simpa [Memory.writeByte] using h)
  | cons d m ih =>
    unfold Memory.writeByte at h
    split at h
    · simpa using h
    · split at h
      · simp only [List.mem_cons] at h ⊢
        tauto
      · simp only [List.mem_cons] at h ⊢
        rcases h with h | h
        · exact .inr (.inl h)
        · rcases ih h with h | h
          · exact .inl h
          · exact .inr (.inr h)

/-- Writing a byte keeps the canonical form. -/
theorem Memory.writeByte_wf {m : Memory} (h : m.wf) (a : XWord) (b : Byte) : (m.writeByte a b).wf := by
  obtain ⟨hs, hb⟩ := h
  refine ⟨?_, ?_⟩
  · rw [List.pairwise_map] at hs ⊢
    induction m with
    | nil => simp [Memory.writeByte]
    | cons c m ih =>
      obtain ⟨hc, hm⟩ := List.pairwise_cons.1 hs
      unfold Memory.writeByte
      split
      · next hlt =>
        refine List.pairwise_cons.2 ⟨fun d hd => ?_, hs⟩
        rcases List.mem_cons.1 hd with rfl | hd
        · exact hlt
        · exact Nat.lt_trans hlt (hc d hd)
      · split
        · next heq => exact List.pairwise_cons.2 ⟨fun d hd => heq ▸ hc d hd, hm⟩
        · next hnlt hne =>
          refine List.pairwise_cons.2 ⟨fun d hd => ?_, ih hm (fun d hd => hb d (List.mem_cons_of_mem _ hd))⟩
          rcases Memory.mem_writeByte hd with rfl | hd
          · exact Nat.lt_of_le_of_ne (Nat.le_of_not_lt hnlt) hne
          · exact hc d hd
  · intro c hc
    rcases Memory.mem_writeByte hc with rfl | hc
    · exact a.isLt
    · exact hb c hc

/-- Writing any bytes keeps the canonical form. -/
theorem memWrite_wf (bs : List Byte) : ∀ {m : Memory}, m.wf → ∀ a : XWord, (memWrite m a bs).wf := by
  induction bs with
  | nil => exact fun h _ => h
  | cons b bs ih => exact fun h a => ih (Memory.writeByte_wf h a b) (a + 1#64)

/-- Everything a read sees after a write of consecutive bytes: the byte written, or what was there. -/
theorem readByte_memWrite (bs : List Byte) : ∀ (m : Memory) (a : XWord), bs.length ≤ 2 ^ 64 → ∀ x : XWord,
    (memWrite m a bs).readByte x =
      if h : (x - a).toNat < bs.length then some bs[(x - a).toNat] else m.readByte x := by
  induction bs with
  | nil => intro m a _ x; simp [memWrite]
  | cons b bs ih =>
    intro m a hl x
    simp only [List.length_cons] at hl
    rw [memWrite, ih _ _ (by omega)]
    by_cases hx : x = a
    · subst hx
      have hfar : ¬ (x - (x + 1#64)).toNat < bs.length := by
        have e : x - (x + 1#64) = -1#64 := by ring_nf
        have : (x - (x + 1#64)).toNat = 2 ^ 64 - 1 := by rw [e]; decide
        omega
      have hzero : (x - x).toNat = 0 := by rw [BitVec.sub_self]; rfl
      simp only [hfar, hzero, dif_neg, not_false_eq_true, Memory.readByte_writeByte_same, List.length_cons]
      simp
    · have hpos : (x - a).toNat ≠ 0 := fun h =>
        hx (sub_eq_zero.1 (BitVec.eq_of_toNat_eq (by simpa using h)))
      have hpred : (x - (a + 1#64)).toNat = (x - a).toNat - 1 := by bv_omega
      rw [Memory.readByte_writeByte_other _ hx]
      simp only [hpred, List.length_cons]
      by_cases hin : (x - a).toNat - 1 < bs.length
      · have : (x - a).toNat < bs.length + 1 := by omega
        simp only [hin, this, dif_pos]
        rw [List.getElem_cons, dif_neg hpos]
      · have : ¬ (x - a).toNat < bs.length + 1 := by omega
        simp only [hin, this, dif_neg, not_false_eq_true]

/-- The four bytes of a word, read at once. -/
theorem memRead_four (m : Memory) (a : XWord) (b0 b1 b2 b3 : Byte) (h0 : m.readByte a = some b0)
    (h1 : m.readByte (a + BitVec.ofNat 64 1) = some b1) (h2 : m.readByte (a + BitVec.ofNat 64 2) = some b2)
    (h3 : m.readByte (a + BitVec.ofNat 64 3) = some b3) : memRead m a 4 = some [b0, b1, b2, b3] := by
  have a2 : a + 1#64 + 1#64 = a + BitVec.ofNat 64 2 := by rw [add_assoc]; rfl
  have a3 : a + BitVec.ofNat 64 2 + 1#64 = a + BitVec.ofNat 64 3 := by rw [add_assoc]; rfl
  simp only [memRead, a2, a3, h0, h1, h2, h3]

/-- Nothing populated is canonical. -/
theorem Memory.nil_wf : Memory.wf [] := ⟨List.Pairwise.nil, fun _ h => absurd h List.not_mem_nil⟩

/-- The memory after reset is canonical. -/
theorem reset_mem_wf : State.reset.mem.wf := Memory.nil_wf

/-- A placed program's memory is canonical. -/
theorem loadProgram_mem_wf (base : XWord) (program : List Word) (s : State) : (loadProgram base program s).mem.wf :=
  memWrite_wf _ Memory.nil_wf base

end Sys2Proof.Machine
end

