-- ==== Sys2Proof/Laws/State.lean ====
section
/-!
SUPPORT. One lemma per field per update of State, and what a register read gives after each update.
-/
namespace Sys2Proof.Machine

/-! ### spWrite -/

@[simp] theorem spWrite_x (v : XWord) (s : State) : (spWrite v s).x = s.x := rfl
@[simp] theorem spWrite_sp (v : XWord) (s : State) : (spWrite v s).sp = v := rfl
@[simp] theorem spWrite_pc (v : XWord) (s : State) : (spWrite v s).pc = s.pc := rfl
@[simp] theorem spWrite_pstate (v : XWord) (s : State) : (spWrite v s).pstate = s.pstate := rfl
@[simp] theorem spWrite_faultMark (v : XWord) (s : State) : (spWrite v s).faultMark = s.faultMark := rfl
@[simp] theorem spWrite_mem (v : XWord) (s : State) : (spWrite v s).mem = s.mem := rfl
@[simp] theorem spWrite_progBase (v : XWord) (s : State) : (spWrite v s).progBase = s.progBase := rfl
@[simp] theorem spWrite_progLen (v : XWord) (s : State) : (spWrite v s).progLen = s.progLen := rfl

/-! ### advancePc -/

@[simp] theorem advancePc_x (s : State) : (advancePc s).x = s.x := rfl
@[simp] theorem advancePc_sp (s : State) : (advancePc s).sp = s.sp := rfl
@[simp] theorem advancePc_pc (s : State) : (advancePc s).pc = s.pc + 4#64 := rfl
@[simp] theorem advancePc_pstate (s : State) : (advancePc s).pstate = s.pstate := rfl
@[simp] theorem advancePc_faultMark (s : State) : (advancePc s).faultMark = s.faultMark := rfl
@[simp] theorem advancePc_mem (s : State) : (advancePc s).mem = s.mem := rfl
@[simp] theorem advancePc_progBase (s : State) : (advancePc s).progBase = s.progBase := rfl
@[simp] theorem advancePc_progLen (s : State) : (advancePc s).progLen = s.progLen := rfl

/-! ### setNzcv -/

@[simp] theorem setNzcv_x (f : BitVec 4) (s : State) : (setNzcv f s).x = s.x := rfl
@[simp] theorem setNzcv_sp (f : BitVec 4) (s : State) : (setNzcv f s).sp = s.sp := rfl
@[simp] theorem setNzcv_pc (f : BitVec 4) (s : State) : (setNzcv f s).pc = s.pc := rfl
@[simp] theorem setNzcv_dit (f : BitVec 4) (s : State) : (setNzcv f s).pstate.dit = s.pstate.dit := rfl
@[simp] theorem setNzcv_faultMark (f : BitVec 4) (s : State) : (setNzcv f s).faultMark = s.faultMark := rfl
@[simp] theorem setNzcv_mem (f : BitVec 4) (s : State) : (setNzcv f s).mem = s.mem := rfl
@[simp] theorem setNzcv_progBase (f : BitVec 4) (s : State) : (setNzcv f s).progBase = s.progBase := rfl
@[simp] theorem setNzcv_progLen (f : BitVec 4) (s : State) : (setNzcv f s).progLen = s.progLen := rfl

/-! ### recordFault -/

@[simp] theorem recordFault_x (f : Fault) (s : State) : (recordFault f s).x = s.x := by cases f; rfl
@[simp] theorem recordFault_sp (f : Fault) (s : State) : (recordFault f s).sp = s.sp := by cases f; rfl
@[simp] theorem recordFault_pc (f : Fault) (s : State) : (recordFault f s).pc = s.pc := by cases f; rfl
@[simp] theorem recordFault_pstate (f : Fault) (s : State) : (recordFault f s).pstate = s.pstate := by cases f; rfl
@[simp] theorem recordFault_mem (f : Fault) (s : State) : (recordFault f s).mem = s.mem := by cases f; rfl
@[simp] theorem recordFault_progBase (f : Fault) (s : State) : (recordFault f s).progBase = s.progBase := by
  cases f; rfl
@[simp] theorem recordFault_progLen (f : Fault) (s : State) : (recordFault f s).progLen = s.progLen := by cases f; rfl
@[simp] theorem recordFault_faultMark (pc : XWord) (w : Word) (s : State) :
    (recordFault (.undefined pc w) s).faultMark = some { pc := pc, word := w } := rfl

/-! ### loadProgram -/

@[simp] theorem loadProgram_x (b : XWord) (ws : List Word) (s : State) : (loadProgram b ws s).x = s.x := rfl
@[simp] theorem loadProgram_sp (b : XWord) (ws : List Word) (s : State) : (loadProgram b ws s).sp = s.sp := rfl
@[simp] theorem loadProgram_pc (b : XWord) (ws : List Word) (s : State) : (loadProgram b ws s).pc = b := rfl
@[simp] theorem loadProgram_pstate (b : XWord) (ws : List Word) (s : State) :
    (loadProgram b ws s).pstate = s.pstate := rfl
@[simp] theorem loadProgram_faultMark (b : XWord) (ws : List Word) (s : State) :
    (loadProgram b ws s).faultMark = none := rfl
@[simp] theorem loadProgram_mem (b : XWord) (ws : List Word) (s : State) :
    (loadProgram b ws s).mem = memWrite [] b (ws.flatMap bytesOfWord) := rfl
@[simp] theorem loadProgram_progBase (b : XWord) (ws : List Word) (s : State) :
    (loadProgram b ws s).progBase = b := rfl
@[simp] theorem loadProgram_progLen (b : XWord) (ws : List Word) (s : State) :
    (loadProgram b ws s).progLen = ws.length := rfl

/-! ### xWrite -/

theorem xWrite_of_lt {n : RegNum} (h : n.val < 31) (w : Nat) (v : BitVec w) (s : State) :
    xWrite n w v s = { s with x := s.x.set n.val (v.setWidth 64) } := by
  simp [xWrite, h]

/-- The zero register discards writes (10_state.md R34). -/
@[simp] theorem xWrite_31 (w : Nat) (v : BitVec w) (s : State) : xWrite 31 w v s = s := by simp [xWrite]

@[simp] theorem xWrite_sp (n : RegNum) (w : Nat) (v : BitVec w) (s : State) : (xWrite n w v s).sp = s.sp := by
  unfold xWrite; split <;> rfl
@[simp] theorem xWrite_pc (n : RegNum) (w : Nat) (v : BitVec w) (s : State) : (xWrite n w v s).pc = s.pc := by
  unfold xWrite; split <;> rfl
@[simp] theorem xWrite_pstate (n : RegNum) (w : Nat) (v : BitVec w) (s : State) :
    (xWrite n w v s).pstate = s.pstate := by
  unfold xWrite; split <;> rfl
@[simp] theorem xWrite_faultMark (n : RegNum) (w : Nat) (v : BitVec w) (s : State) :
    (xWrite n w v s).faultMark = s.faultMark := by
  unfold xWrite; split <;> rfl
@[simp] theorem xWrite_mem (n : RegNum) (w : Nat) (v : BitVec w) (s : State) : (xWrite n w v s).mem = s.mem := by
  unfold xWrite; split <;> rfl
@[simp] theorem xWrite_progBase (n : RegNum) (w : Nat) (v : BitVec w) (s : State) :
    (xWrite n w v s).progBase = s.progBase := by
  unfold xWrite; split <;> rfl
@[simp] theorem xWrite_progLen (n : RegNum) (w : Nat) (v : BitVec w) (s : State) :
    (xWrite n w v s).progLen = s.progLen := by
  unfold xWrite; split <;> rfl

/-! ### Register reads -/

theorem regNum_lt_of_ne {n : RegNum} (h : n ≠ 31) : n.val < 31 := by
  have : n.val ≠ 31 := fun e => h (Fin.ext e)
  omega

theorem xRead_of_lt {n : RegNum} (h : n.val < 31) (w : Nat) (s : State) :
    xRead n w s = s.x[n.val].setWidth w := by
  simp [xRead, h]

/-- The zero register (10_state.md R33). -/
@[simp] theorem xRead_31 (w : Nat) (s : State) : xRead 31 w s = 0#w := by simp [xRead]

/-- A read looks at x alone. -/
theorem xRead_congr {s t : State} (h : s.x = t.x) (n : RegNum) (w : Nat) : xRead n w s = xRead n w t := by
  simp [xRead, h]

@[simp] theorem xRead_spWrite (n : RegNum) (w : Nat) (v : XWord) (s : State) :
    xRead n w (spWrite v s) = xRead n w s := xRead_congr rfl n w
@[simp] theorem xRead_advancePc (n : RegNum) (w : Nat) (s : State) :
    xRead n w (advancePc s) = xRead n w s := xRead_congr rfl n w
@[simp] theorem xRead_setNzcv (n : RegNum) (w : Nat) (f : BitVec 4) (s : State) :
    xRead n w (setNzcv f s) = xRead n w s := xRead_congr rfl n w

/-- Reading back all of a written register gives the zero-extended value (10_state.md R33, R34). -/
theorem xRead_xWrite_same {n : RegNum} (h : n ≠ 31) (w : Nat) (v : BitVec w) (s : State) :
    xRead n 64 (xWrite n w v s) = v.setWidth 64 := by
  have hn := regNum_lt_of_ne h
  rw [xWrite_of_lt hn, xRead_of_lt hn]
  simp

/-- Writing one register leaves the reads of every other register alone. -/
theorem xRead_xWrite_other {k n : RegNum} (h : k ≠ n) (r w : Nat) (v : BitVec w) (s : State) :
    xRead k r (xWrite n w v s) = xRead k r s := by
  by_cases hn : n.val < 31
  · rw [xWrite_of_lt hn]
    by_cases hk : k.val < 31
    · rw [xRead_of_lt hk, xRead_of_lt hk]
      have : n.val ≠ k.val := fun e => h (Fin.ext e.symm)
      simp [this]
    · simp [xRead, hk]
  · simp [xWrite, hn]

end Sys2Proof.Machine
end

