-- ==== Sys2Proof/Laws/Operands.lean ====
section
/-!
SUPPORT. What a register read and the extension of a second source give.
-/
namespace Sys2Proof.Machine

/-- A narrower read is the low part of the whole register (10_state.md R31, R33). -/
theorem xRead_eq_setWidth (m : RegNum) (w : Nat) (s : State) : xRead m w s = (xRead m 64 s).setWidth w := by
  unfold xRead; split <;> simp

/-- Zero extension of the clamped part above zero bits is a shift of the zero-extended part
(40_sub_extended_register.md R98). -/
theorem setWidth_append_zeros {N : Nat} (v : BitVec N) (len shift : Nat) :
    (v.setWidth (min len (N - shift)) ++ 0#shift).setWidth N = (v.setWidth len).setWidth N <<< shift := by
  refine BitVec.eq_of_getLsbD_eq fun i hi => ?_
  simp only [BitVec.getLsbD_setWidth, BitVec.getLsbD_append, BitVec.getLsbD_shiftLeft, hi, decide_true, Bool.true_and]
  by_cases h : i < shift
  · simp [h]
  · have : i - shift < N := by omega
    have e : (i - shift < min len (N - shift)) ↔ i - shift < len := by omega
    simp [h, this, e]

/-- The same for sign extension (40_sub_extended_register.md R98). -/
theorem signExtend_append_zeros {N : Nat} (v : BitVec N) (len shift : Nat) (hl : 0 < len) :
    (v.setWidth (min len (N - shift)) ++ 0#shift).signExtend N = (v.setWidth len).signExtend N <<< shift := by
  refine BitVec.eq_of_getLsbD_eq fun i hi => ?_
  simp only [BitVec.getLsbD_signExtend, BitVec.getLsbD_shiftLeft, BitVec.msb_eq_getLsbD_last, BitVec.getLsbD_append,
    BitVec.getLsbD_setWidth, hi, decide_true, Bool.true_and]
  by_cases h : i < shift
  · have : i < min len (N - shift) + shift := by omega
    simp [h, this]
  · have h1 : i - shift < N := by omega
    by_cases h2 : i - shift < len
    · have h3 : i < min len (N - shift) + shift := by omega
      have h4 : i - shift < min len (N - shift) := by omega
      simp only [h1, h2, h3, h4, h]; simp
    · have h3 : min len (N - shift) = len := by omega
      have h4 : ¬ i < len + shift := by omega
      have h5 : len - 1 < len := by omega
      have h6 : len + shift - 1 - shift = len - 1 := by omega
      have h7 : ¬ len + shift - 1 < shift := by omega
      simp only [h, h1, h2, h3, h4, h5, h6, h7]; simp

end Sys2Proof.Machine
end

