-- ==== Sys2Proof/Laws/PerInstr.lean ====
section
/-!
SUPPORT. Per instruction: the word of an instruction holds the fixed bits of its encoding (30_encoding.md R68, R69).
-/
namespace Sys2Proof.Laws

/-- The fixed bits of a row of spec/opcode_table.json: mask 0xFFE00000. -/
def FixedBits.matchOf : Instr → Word
  | .sub32 .. => 0x4B200000#32
  | .sub64 .. => 0xCB200000#32

/-- The instruction's word matches its own row of the opcode table. -/
def FixedBits.Statement (i : Instr) : Prop := encodeWord i &&& 0xFFE00000#32 = FixedBits.matchOf i

theorem FixedBits.of_encodeFields (sf : BitVec 1) (rm : BitVec 5) (option imm3 : BitVec 3) (rn rd : BitVec 5) :
    encodeFields sf rm option imm3 rn rd &&& 0xFFE00000#32 = encodeFields sf 0#5 0#3 0#3 0#5 0#5 := by
  refine BitVec.eq_of_getLsbD_eq fun i hi => ?_
  simp only [encodeFields, BitVec.getLsbD_and, BitVec.getLsbD_append]
  interval_cases i <;> simp

theorem FixedBits.sub32 (d n m : RegNum) (ext : ExtendType) (shift : Fin 8) :
    FixedBits.Statement (.sub32 d n m ext shift) :=
  (FixedBits.of_encodeFields _ _ _ _ _ _).trans (by simp only [FixedBits.matchOf]; decide)

theorem FixedBits.sub64 (d n m : RegNum) (ext : ExtendType) (shift : Fin 8) :
    FixedBits.Statement (.sub64 d n m ext shift) :=
  (FixedBits.of_encodeFields _ _ _ _ _ _).trans (by simp only [FixedBits.matchOf]; decide)

end Sys2Proof.Laws
end

