-- ==== Sys2Proof/Laws/Step.lean ====
section
/-!
SUPPORT. Once each: everything the destination write, the meanings, the fetch and the step can do.
-/
namespace Sys2Proof.Machine

/-! ### The destination -/

theorem writeDest_sp_form {w : Nat} (r : BitVec w) (s : State) :
    writeDest 31 false r s = spWrite (r.setWidth 64) s := by simp [writeDest]

theorem writeDest_x_form {d : RegNum} (h : d ≠ 31) (f : Bool) {w : Nat} (r : BitVec w) (s : State) :
    writeDest d f r s = xWrite d w r s := by simp [writeDest, h]

/-- What the destination holds after the write, in either form (10_state.md R34, R36). -/
theorem writeDest_value (d : RegNum) {w : Nat} (r : BitVec w) (s : State) :
    (if d = 31 then (writeDest d false r s).sp else xRead d 64 (writeDest d false r s)) = r.setWidth 64 := by
  split
  · next h => subst h; simp [writeDest_sp_form]
  · next h => rw [writeDest_x_form h, xRead_xWrite_same h]

section WriteDest
variable (d : RegNum) (f : Bool) {w : Nat} (r : BitVec w) (s : State)

@[simp] theorem writeDest_pc : (writeDest d f r s).pc = s.pc := by unfold writeDest; split <;> simp
@[simp] theorem writeDest_pstate : (writeDest d f r s).pstate = s.pstate := by unfold writeDest; split <;> simp
@[simp] theorem writeDest_faultMark : (writeDest d f r s).faultMark = s.faultMark := by
  unfold writeDest; split <;> simp
@[simp] theorem writeDest_mem : (writeDest d f r s).mem = s.mem := by unfold writeDest; split <;> simp
@[simp] theorem writeDest_progBase : (writeDest d f r s).progBase = s.progBase := by
  unfold writeDest; split <;> simp
@[simp] theorem writeDest_progLen : (writeDest d f r s).progLen = s.progLen := by unfold writeDest; split <;> simp

end WriteDest

/-! ### The meanings -/

/-- The datasize of an instruction's encoding, as its meaning passes it on. -/
theorem exec_subInstr (is64 : Bool) (d n m : RegNum) (ext : ExtendType) (shift : Fin 8) (s : State) :
    exec (subInstr is64 d n m ext shift) s =
      subExtended (if is64 then 64 else 32) (encodeWord (subInstr is64 d n m ext shift)) d n m ext shift s := by
  cases is64 <;> rfl

/-- Every instruction is one of the two encodings of one form. -/
theorem instr_eq_subInstr (i : Instr) : ∃ is64 d n m ext shift, i = subInstr is64 d n m ext shift := by
  cases i with
  | sub32 d n m ext shift => exact ⟨false, d, n, m, ext, shift, rfl⟩
  | sub64 d n m ext shift => exact ⟨true, d, n, m, ext, shift, rfl⟩

/-- Everything the shared meaning can do (40_sub_extended_register.md R95, R96): the fault, or the one next state. -/
theorem subExtended_cases (w : Nat) (word : Word) (d n m : RegNum) (ext : ExtendType) (shift : Fin 8) (s : State) :
    (4 < shift.val ∧ subExtended w word d n m ext shift s = .fault (.undefined s.pc word)) ∨
      (shift.val ≤ 4 ∧ subExtended w word d n m ext shift s =
        .next (advancePc (writeDest d false
          (addWithCarry (firstSource n w s) (~~~(extendReg m ext shift.val w s)) true).1 s))) := by
  by_cases h : 4 < shift.val
  · exact .inl ⟨h, by simp [subExtended, h, raiseUndefined]⟩
  · exact .inr ⟨Nat.le_of_not_lt h, by simp [subExtended, h, addSubExtended]⟩

/-- If a meaning answers a next state, that state is the destination write and the pc's advance, nothing else. -/
theorem exec_next {i : Instr} {s t : State} (h : exec i s = .next t) :
    ∃ (d : RegNum) (w : Nat) (r : BitVec w), t = advancePc (writeDest d false r s) := by
  obtain ⟨is64, d, n, m, ext, shift, rfl⟩ := instr_eq_subInstr i
  rw [exec_subInstr] at h
  rcases subExtended_cases (if is64 then 64 else 32) (encodeWord (subInstr is64 d n m ext shift)) d n m ext shift s with
    ⟨-, e⟩ | ⟨-, e⟩
  · rw [e] at h; cases h
  · rw [e] at h; cases h; exact ⟨d, _, _, rfl⟩

/-! ### The fetch and the step -/

/-- The index of the pc, when it has one, is that of the word it addresses (20_memory.md R52). -/
theorem programIndex_some {s : State} {k : Nat} (h : programIndex s = some k) :
    k < s.progLen ∧ s.pc = programAddr k s := by
  unfold programIndex at h
  split at h
  · next hh =>
    simp only [Option.some.injEq] at h
    subst h
    refine ⟨hh.2.2, BitVec.eq_of_toNat_eq ?_⟩
    have := s.pc.isLt
    simp only [programAddr, BitVec.toNat_add, BitVec.toNat_ofNat]; omega
  · cases h

/-- A pc at a word of a legally placed program has that word's index (20_memory.md R52). -/
theorem programIndex_at {s : State} {k : Nat} (h : placementOk s) (hk : k < s.progLen)
    (hp : s.pc = programAddr k s) : programIndex s = some k := by
  have hb := h.2
  have e : s.pc.toNat = s.progBase.toNat + 4 * k := by
    simp only [hp, programAddr, BitVec.toNat_add, BitVec.toNat_ofNat, Config.addressSpace] at *; omega
  unfold programIndex
  rw [if_pos (by omega)]
  congr 1; omega

/-- The fetch off the end, at a word of PROGRAM. -/
theorem fetch_of_programWord {s : State} {k : Nat} {w : Word} (hm : s.faultMark = none) (hp : placementOk s)
    (he : s.pc ≠ programEnd s) (hk : programIndex s = some k) (hw : programWord k s = some w) : fetch s = .ok w := by
  have hb : ¬ Config.addressSpace < s.progBase.toNat + 4 * s.progLen := by have := hp.2; omega
  unfold fetch
  simp only [hm]
  rw [if_neg (by simpa using hp.1), if_neg hb, if_neg he]
  simp [hk, hw]

/-- A fetch gives a word only without a fault mark, from a legal placement, off the end, at a word of PROGRAM. -/
theorem fetch_ok {s : State} {w : Word} (h : fetch s = .ok w) :
    s.faultMark = none ∧ placementOk s ∧ s.pc ≠ programEnd s ∧
      ∃ k, programIndex s = some k ∧ programWord k s = some w := by
  unfold fetch at h
  split at h
  · cases h
  · next hm =>
    split at h
    · cases h
    · next ha =>
      split at h
      · cases h
      · next hb =>
        split at h
        · cases h
        · next he =>
          split at h
          · cases h
          · next k hk =>
            split at h
            · cases h
            · next w' hw =>
              cases h
              exact ⟨hm, ⟨by simpa using ha, Nat.le_of_not_lt hb⟩, he, k, hk, hw⟩

/-- If a step answers a next state, it is the meaning of the fetched instruction that did (70_reset_and_hazards.md
R143). -/
theorem step_next {s t : State} (h : step s = .next t) :
    ∃ w i, fetch s = .ok w ∧ decode w = .ok i ∧ exec i s = .next t := by
  unfold step at h
  split at h
  · next stop _ => cases stop <;> cases h
  · next w hw =>
    split at h
    · next r _ => cases r <;> cases h
    · next i hi => exact ⟨w, i, hw, hi, h⟩

end Sys2Proof.Machine
end

