-- ==== Sys2Proof/Tests/Slice0.lean ====
section
/-!
SUPPORT. Tests: words and results from spec/95_test_vectors.md and spec/30_encoding.md, never from the model; and, for
every statement with hypotheses, a concrete case that meets them (boundary values where a clause has a range).
-/
namespace Sys2Proof.Tests
open Sys2Proof Sys2Proof.Machine

/-! ### Well-formedness: an ill-formed term for its check (30_encoding.md R75) -/

theorem test_wf_refuses_shift_5_in_sub32 : (Instr.sub32 0 1 2 .uxtb 5).wf = false := by decide
theorem test_wf_refuses_shift_5_in_sub64 : (Instr.sub64 0 1 2 .uxtb 5).wf = false := by decide
theorem test_wf_admits_shift_4 :
    (Instr.sub32 31 31 31 .sxtx 4).wf = true ∧ (Instr.sub64 31 31 31 .sxtx 4).wf = true := by decide

/-! ### Decoding, words written bit by bit from 30_encoding.md R66 -/

/-- `0 1 0 01011 00 1 Rm=00010 option=100 imm3=001 Rn=00001 Rd=00000` is SUB W0, W1, W2, SXTB #1. -/
theorem test_decode_sub32 : decode 0b01001011001000101000010000100000#32 = .ok (.sub32 0 1 2 .sxtb 1) := by decide
/-- `1 1 0 01011 00 1 Rm=00010 option=111 imm3=001 Rn=00001 Rd=00000` is SUB X0, X1, X2, SXTX #1. -/
theorem test_decode_sub64 : decode 0b11001011001000101110010000100000#32 = .ok (.sub64 0 1 2 .sxtx 1) := by decide
/-- The three register fields told apart: Rd = 3, Rn = 6, Rm = 5. -/
theorem test_decode_field_places : decode 0b11001011001001010110000011000011#32 = .ok (.sub64 3 6 5 .uxtx 0) := by
  decide
/-- 95_test_vectors.md section 2, the rows of S, op, opt, bit 21 and bits 28:24, each flipped. -/
theorem test_decode_refuses_neighbours :
    ([0x8B220020#32, 0xEB220020#32, 0xAB220020#32, 0xCB620020#32, 0xCBA20020#32, 0xCBE20020#32, 0xCB020020#32,
      0xCA220020#32, 0xDB220020#32].all fun w => decide (decode w = .error .notInSpec)) = true := by decide
/-- 20_memory.md R54: `SUB X0, X1, W2, UXTB #2` is the bytes 20 08 22 CB. -/
theorem test_bytes_little_endian : encode (.sub64 0 1 2 .uxtb 2) = [0x20#8, 0x08#8, 0x22#8, 0xCB#8] := by decide
theorem test_decode_bytes_leaves_the_rest :
    decodeBytes [0x20#8, 0x08#8, 0x22#8, 0xCB#8, 0x7F#8] = .ok (.sub64 0 1 2 .uxtb 2, [0x7F#8]) := by decide
theorem test_decode_bytes_too_few : decodeBytes [0x20#8, 0x08#8, 0x22#8] = .error .tooFewBytes := by decide
theorem test_decode_table_words :
    decodeTableWord 32 0x4B200000 = some (.sub32 0 0 0 .uxtb 0) ∧
    decodeTableWord 32 0xCB200000 = some (.sub64 0 0 0 .uxtb 0) ∧ decodeTableWord 32 0xCB227420 = none := by decide

/-! ### Results (95_test_vectors.md sections 3.2 and 3.3): one step each -/

/-- A state with x[1], x[2] and sp given, DIT and two flags set. -/
def start (x1 x2 sp : XWord) : State :=
  { State.reset with
    x := (State.reset.x.set 1 x1).set 2 x2, sp := sp,
    pstate := { n := true, z := false, c := true, v := false, dit := true } }

/-- A property of the state after one step of a placed word; false if there is none. -/
def afterStep (s : State) (w : Nat) (p : State → Bool) : Bool :=
  match step (s.withFetchWord 32 w) with
  | .next t => p t
  | .fault _ => false
  | .refused _ => false

/-- `SUB W0, W1, W2, SXTB #4`: the upper halves are ignored and cleared, the extension is signed. -/
theorem test_sub32_sxtb_4 :
    afterStep (start 0xAAAAAAAA00001000 0xFEDCBA98F654B281 0) 0x4B229020
      (fun t => t.x[0] == 0x17F0#64 && t.pc == 4#64) = true := by decide
/-- `SUB WSP, W1, W2, LSL #1`: sp[63:32] is cleared and the difference wraps at 32 bits. -/
theorem test_sub32_to_wsp :
    afterStep (start 0xFFFFFFFF00000000 1 0x5555555555555555) 0x4B22443F (fun t => t.sp == 0xFFFFFFFE#64) = true := by
  decide
/-- `SUB X0, X1, W2, SXTW #4` of 0x80000000: the extension is to 64 bits, before the shift. -/
theorem test_sub64_sxtw_4 :
    afterStep (start 0 0x80000000 0) 0xCB22D020
      (fun t => t.x[0] == 0x0000000800000000#64 && t.pstate == (start 0 0 0).pstate) = true := by decide
/-- `SUB SP, SP, X1`: Rn and Rd 31 are sp, with no alignment check. -/
theorem test_sub64_sp_misaligned : afterStep (start 1 0 7) 0xCB2163FF (fun t => t.sp == 6#64) = true := by decide
/-- `0xCB3FFFFF` (imm3 = 7, every register 31) is Undefined, not a no-op (section 3.4). -/
theorem test_undefined_before_registers :
    step (State.reset.withFetchWord 32 0xCB3FFFFF) = .fault (.undefined 0 0xCB3FFFFF) := rfl

/-! ### The assembler (95_test_vectors.md section 2; 30_encoding.md R85, R86) -/

theorem test_text_preferred_spellings :
    (disassemble (.sub64 31 31 1 .uxtx 4)).text = "SUB SP, SP, X1, LSL #4" ∧
    (disassemble (.sub32 31 31 31 .sxtx 4)).text = "SUB WSP, WSP, WZR, SXTX #4" ∧
    (disassemble (.sub64 3 31 31 .uxtx 0)).text = "SUB X3, SP, XZR" := by decide
/-- `SUB X0, X1, X2` with no extend is no instruction of the spec (R85), nor is LSL without an amount (R86). -/
theorem test_assemble_refuses :
    assemble { d := .x 0, n := .x 1, m := .x 2, extend := none, amount := none } = none ∧
    assemble { d := .sp, n := .sp, m := .x 1, extend := some .lsl, amount := none } = none ∧
    assemble { d := .x 0, n := .x 1, m := .w 2, extend := some (.named .sxtx), amount := some 1 } = none ∧
    assemble { d := .x 0, n := .x 1, m := .w 2, extend := some (.named .sxtw), amount := some 5 } = none := by decide

/-! ### Witnesses: a concrete case that meets the hypotheses of each statement that has any -/

/-- One word placed at 0x1000. -/
def placed (w : Word) : State := loadProgram 0x1000#64 [w] State.reset

theorem placed_inv (w : Word) : Inv (placed w) :=
  ⟨rfl, ⟨by show 0x1000 % 4 = 0; decide, by show 0x1000 + 4 * 1 ≤ 2 ^ 64; decide⟩, rfl, 0, Nat.zero_le _, rfl⟩

theorem witness_shift_above_four_is_undefined :
    (0xCB227420#32).extractLsb' 21 10 = 0b1001011001#10 ∧ 4 < ((0xCB227420#32).extractLsb' 10 3).toNat ∧
    (0x4B3FFFFF#32).extractLsb' 21 10 = 0b1001011001#10 ∧ 4 < ((0x4B3FFFFF#32).extractLsb' 10 3).toNat ∧
    fetch (placed 0xCB227420#32) = .ok 0xCB227420#32 ∧
    (0xCB22D020#32).extractLsb' 21 10 = 0b1001011001#10 ∧ ((0xCB22D020#32).extractLsb' 10 3).toNat ≤ 4 := by decide
theorem witness_operand_fields :
    (0xCB3FF3FF#32).extractLsb' 21 10 = 0b1001011001#10 ∧ ((0xCB3FF3FF#32).extractLsb' 10 3).toNat ≤ 4 ∧
    (0x4B200000#32).extractLsb' 21 10 = 0b1001011001#10 ∧ ((0x4B200000#32).extractLsb' 10 3).toNat ≤ 4 := by decide
theorem witness_decode_of_encode_and_disassemble :
    (Instr.sub32 31 0 31 .sxtx 4).wf = true ∧ (Instr.sub64 0 31 30 .uxtb 0).wf = true := by decide
theorem witness_encode_of_decode_and_range :
    decode 0xCB3FF3FF#32 = .ok (.sub64 31 31 31 .sxtx 4) ∧ decode 0x4B200000#32 = .ok (.sub32 0 0 0 .uxtb 0) := by decide
theorem witness_flags_of_subtraction : 0 < 1 ∧ (addWithCarry (0#1) (~~~1#1) true).2.getLsbD 1 = false := by decide
theorem witness_shift_at_most_four_boundary :
    (0 : Nat) ≤ 4 ∧ (4 : Nat) ≤ 4 ∧ (0 : Fin 8).val ≤ 4 ∧ (4 : Fin 8).val ≤ 4 ∧ 4 < (5 : Fin 8).val ∧ 4 < (7 : Fin 8).val := by
  decide
theorem witness_sub_frame :
    (∃ t, exec (subInstr true 31 31 1 .uxtx 4) (start 3 0 9) = .next t) ∧
    (∃ t, exec (subInstr false 30 0 31 .sxtb 0) (start 3 0 9) = .next t) := ⟨⟨_, rfl⟩, ⟨_, rfl⟩⟩
theorem witness_full_width_extends :
    ExtendType.uxtx = .uxtx ∨ ExtendType.uxtx = .sxtx ∨ ExtendType.uxtx = .sxtw := by decide
theorem witness_sub32_ignores_upper_halves :
    start 0x1_00000007 0x2_00000005 0 ≠ start 7 5 0 ∧
    (xRead 1 64 (start 0x1_00000007 0x2_00000005 0)).setWidth 32 = (xRead 1 64 (start 7 5 0)).setWidth 32 ∧
    (xRead 2 64 (start 0x1_00000007 0x2_00000005 0)).setWidth 32 = (xRead 2 64 (start 7 5 0)).setWidth 32 := by decide
theorem witness_sub32_ignores_upper_half_of_sp :
    (start 0 0 0x9_00000001).sp.setWidth 32 = (start 0 0 1).sp.setWidth 32 := by decide
theorem witness_sub64_looks_at_extended_part :
    start 7 0x1FF 0 ≠ start 7 0x2FF 0 ∧ xRead 1 64 (start 7 0x1FF 0) = xRead 1 64 (start 7 0x2FF 0) ∧
    (xRead 2 64 (start 7 0x1FF 0)).setWidth (extendLen .uxtb) =
      (xRead 2 64 (start 7 0x2FF 0)).setWidth (extendLen .uxtb) := by decide
theorem witness_flags_next :
    ∃ t, exec (.sub64 0 1 2 .uxtx 0) (start 5 3 0) = .next t ∧ t.pstate.n = true := ⟨_, rfl, rfl⟩
/-- A program that ends at the top of the address space, at its last word. -/
theorem witness_fetch_reads_the_placed_program :
    (3 : Nat) < [0x4B200000#32, 0xCB200000#32, 0xCB206000#32, 0xCB3FF3FF#32].length ∧
    (0xFFFFFFFFFFFFFFF0#64).toNat % 4 = 0 ∧ (0xFFFFFFFFFFFFFFF0#64).toNat + 4 * 4 ≤ 2 ^ 64 ∧ 4 * 4 < 2 ^ 64 := by
  decide
theorem witness_fetch_outside_program :
    (∀ k, k ≤ (placed 0#32).progLen → (0x1002#64) ≠ programAddr k (placed 0#32)) ∧
    (∀ k, k ≤ (placed 0#32).progLen → (0x1008#64) ≠ programAddr k (placed 0#32)) ∧
    (placed 0#32).faultMark = none ∧ placementOk (placed 0#32) := by decide
theorem witness_bad_placement :
    State.reset.faultMark = none ∧ (2#64).toNat % 4 ≠ 0 ∧ (0xFFFFFFFFFFFFFFFC#64).toNat % 4 = 0 ∧
    2 ^ 64 < (0xFFFFFFFFFFFFFFFC#64).toNat + 4 * 2 := by decide
theorem witness_step_runs_the_decoded_instruction :
    (placed 0xCB206000#32).faultMark = none ∧ placementOk (placed 0xCB206000#32) ∧
    (placed 0xCB206000#32).pc ≠ programEnd (placed 0xCB206000#32) ∧ 0 < (placed 0xCB206000#32).progLen ∧
    (placed 0xCB206000#32).pc = programAddr 0 (placed 0xCB206000#32) ∧
    memRead (placed 0xCB206000#32).mem (placed 0xCB206000#32).pc 4 = some [0x00#8, 0x60#8, 0x20#8, 0xCB#8] ∧
    decodeBytes [0x00#8, 0x60#8, 0x20#8, 0xCB#8] = .ok (.sub64 0 0 0 .uxtx 0, []) := by decide
theorem witness_unspecified_word :
    fetch (placed 0xD503201F#32) = .ok 0xD503201F#32 ∧ (0xD503201F#32).extractLsb' 21 10 ≠ 0b1001011001#10 := by decide
theorem witness_step_next : ∃ t, step (placed 0xCB206000#32) = .next t := ⟨_, rfl⟩
theorem witness_step_keeps_the_invariant :
    Inv (placed 0xCB206000#32) ∧ ∃ t, step (placed 0xCB206000#32) = .next t := ⟨placed_inv _, ⟨_, rfl⟩⟩
theorem witness_only_fault_and_faulted_run :
    (placed 0x4B221420#32).faultMark = none ∧ fetch (placed 0x4B221420#32) = .ok 0x4B221420#32 ∧
    decode 0x4B221420#32 = .error .undefined := by decide
theorem witness_faulted_state :
    (recordFault (.undefined 0x1000#64 0x4B221420#32) (placed 0x4B221420#32)).faultMark =
      some { pc := 0x1000#64, word := 0x4B221420#32 } := by decide
theorem witness_runs_never_fetch_outside :
    Inv (placed 0xD503201F#32) ∧ (placed 0xD503201F#32).pc ≠ programEnd (placed 0xD503201F#32) ∧
    (∃ r, step (placed 0xD503201F#32) = .refused r) ∧ ∃ r, step State.reset = .refused r :=
  ⟨placed_inv _, by decide, ⟨_, rfl⟩, ⟨_, rfl⟩⟩
theorem witness_ended : ended State.reset ∧ ended { placed 0xCB206000#32 with pc := 0x1004#64 } := by decide
theorem witness_run_ends :
    Inv (placed 0xCB206000#32) ∧ (placed 0xCB206000#32).pc = (placed 0xCB206000#32).progBase ∧
    4 * (placed 0xCB206000#32).progLen < 2 ^ 64 ∧
    ∀ k, k < (placed 0xCB206000#32).progLen →
      ∃ w i, programWord k (placed 0xCB206000#32) = some w ∧ decode w = .ok i := by
  refine ⟨placed_inv _, rfl, by decide, fun k hk => ?_⟩
  obtain rfl : k = 0 := Nat.lt_one_iff.1 hk
  exact ⟨0xCB206000#32, .sub64 0 0 0 .uxtx 0, rfl, rfl⟩
/-- `SUB X0, X1, W2, SXTW`; `SUB SP, SP, X1`; `SUB WSP, W1, W2, LSL #1`; `SUB X5, X6, XZR, SXTX #4`. -/
theorem witness_assembled :
    assemble { d := .x 0, n := .x 1, m := .w 2, extend := some (.named .sxtw), amount := none } =
      some (subInstr true 0 1 2 .sxtw 0) ∧
    assemble { d := .sp, n := .sp, m := .x 1, extend := none, amount := none } =
      some (subInstr true 31 31 1 .uxtx 0) ∧
    assemble { d := .wsp, n := .w 1, m := .w 2, extend := some .lsl, amount := some 1 } =
      some (subInstr false 31 1 2 .uxtw 1) ∧
    assemble { d := .x 5, n := .x 6, m := .xzr, extend := some (.named .sxtx), amount := some 4 } =
      some (subInstr true 5 6 31 .sxtx 4) := by decide
/-- Where LSL is preferred, at both ends of the shift, and where the plain name is written. -/
theorem witness_extend_spellings :
    ((31 : RegNum) = 31 ∨ (1 : RegNum) = 31) ∧ (0 : Fin 8).val ≤ 4 ∧ (4 : Fin 8).val ≤ 4 ∧
    ExtendType.uxtx = (if true then ExtendType.uxtx else .uxtw) ∧
    ¬ (((0 : RegNum) = 31 ∨ (1 : RegNum) = 31) ∧ ExtendType.uxtx = if true then ExtendType.uxtx else .uxtw) := by
  decide

end Sys2Proof.Tests
end

section
/-!
PROOFS. No instruction and no step reads or writes PSTATE (10_state.md R39): any change of PSTATE commutes with every
operation a step is made of, so a change of the four flags does.
-/
namespace Sys2Proof.Machine

/-- The state with PSTATE changed by `f`. `withFlags` and `withDit` are of this form. -/
def mapPState (f : PState → PState) (s : State) : State := { s with pstate := f s.pstate }

theorem withFlags_eq_mapPState (n z c v : Bool) :
    withFlags n z c v = mapPState fun p => { p with n := n, z := z, c := c, v := v } := rfl

section MapPState
variable (f : PState → PState) (s : State)

/-! ### What reads the state does not see PSTATE -/

@[simp] theorem mapPState_sp : (mapPState f s).sp = s.sp := rfl
@[simp] theorem mapPState_pc : (mapPState f s).pc = s.pc := rfl

@[simp] theorem xRead_mapPState (n : RegNum) (w : Nat) : xRead n w (mapPState f s) = xRead n w s :=
  xRead_congr rfl n w

@[simp] theorem firstSource_mapPState (n : RegNum) (w : Nat) :
    firstSource n w (mapPState f s) = firstSource n w s := by
  simp [firstSource, spRead]

@[simp] theorem extendReg_mapPState (m : RegNum) (ext : ExtendType) (shift w : Nat) :
    extendReg m ext shift w (mapPState f s) = extendReg m ext shift w s := by
  simp [extendReg]

@[simp] theorem fetch_mapPState : fetch (mapPState f s) = fetch s := rfl

/-! ### What changes the state leaves PSTATE as it is -/

theorem advancePc_mapPState : advancePc (mapPState f s) = mapPState f (advancePc s) := rfl

theorem xWrite_mapPState (n : RegNum) (w : Nat) (v : BitVec w) :
    xWrite n w v (mapPState f s) = mapPState f (xWrite n w v s) := by
  unfold xWrite; split <;> rfl

theorem writeDest_mapPState (d : RegNum) {w : Nat} (r : BitVec w) :
    writeDest d false r (mapPState f s) = mapPState f (writeDest d false r s) := by
  by_cases h : d = 31
  · subst h; rw [writeDest_sp_form, writeDest_sp_form]; rfl
  · rw [writeDest_x_form h, writeDest_x_form h, xWrite_mapPState]

/-! ### The meanings and the step -/

theorem subExtended_mapPState (w : Nat) (word : Word) (d n m : RegNum) (ext : ExtendType) (shift : Fin 8) :
    subExtended w word d n m ext shift (mapPState f s) =
      mapNext (mapPState f) (subExtended w word d n m ext shift s) := by
  by_cases h : 4 < shift.val
  · simp [subExtended, h, raiseUndefined, mapNext]
  · simp [subExtended, h, addSubExtended, mapNext, writeDest_mapPState, advancePc_mapPState]

theorem exec_mapPState (i : Instr) : exec i (mapPState f s) = mapNext (mapPState f) (exec i s) := by
  obtain ⟨is64, d, n, m, ext, shift, rfl⟩ := instr_eq_subInstr i
  rw [exec_subInstr, exec_subInstr, subExtended_mapPState]

theorem rejected_mapPState (r : Rejection) (w : Word) :
    rejected r w (mapPState f s) = mapNext (mapPState f) (rejected r w s) := by
  cases r <;> rfl

theorem mapNext_stop_outcome (stop : Stop) : mapNext (mapPState f) stop.outcome = stop.outcome := by
  cases stop <;> rfl

theorem step_mapPState : step (mapPState f s) = mapNext (mapPState f) (step s) := by
  unfold step
  rw [fetch_mapPState]
  cases fetch s with
  | error stop => exact (mapNext_stop_outcome f stop).symm
  | ok w =>
    dsimp only
    cases decode w with
    | error r => exact rejected_mapPState f s r w
    | ok i => exact exec_mapPState f s i

end MapPState

/-- An instruction that completes carries PSTATE unchanged (10_state.md R39, R40). -/
theorem exec_next_pstate {i : Instr} {s t : State} (h : exec i s = .next t) : t.pstate = s.pstate := by
  obtain ⟨d, w, r, rfl⟩ := exec_next h
  simp

/-- Settles O22: a change of the flags is a change of PSTATE, which commutes with every meaning and every step, and
a completed instruction carries all of PSTATE. -/
theorem flagsNeitherReadNorWritten : Obligations.FlagsNeitherReadNorWritten := by
  unfold Obligations.FlagsNeitherReadNorWritten
  refine ⟨fun i n z c v s => ⟨?_, fun t h => ?_⟩, fun n z c v s => ?_⟩
  · rw [withFlags_eq_mapPState]; exact exec_mapPState _ s i
  · rw [exec_next_pstate h]; exact ⟨rfl, rfl, rfl, rfl⟩
  · rw [withFlags_eq_mapPState]; exact step_mapPState _ s

end Sys2Proof.Machine
end

section
/-!
PROOFS. The decoder's class test as the fixed bits 30:21 of the diagram (30_encoding.md R67), its answer on each word of
the class (R75), and the decoded operands as numbers (R71).
-/
namespace Sys2Proof

/-! ### The class test -/

/-- The mask of the class test keeps bits 30:21 in place and clears the rest. -/
theorem and_classMask (w : Word) : w &&& 0x7FE00000#32 = (w.extractLsb' 21 10).setWidth 32 <<< 21 := by
  refine BitVec.eq_of_getLsbD_eq fun i hi => ?_
  simp only [BitVec.getLsbD_and, BitVec.getLsbD_shiftLeft, BitVec.getLsbD_setWidth, BitVec.getLsbD_extractLsb']
  interval_cases i <;> simp

/-- Moving ten bits up to bit 21 loses none of them. -/
theorem setWidth_shiftLeft_21_injective :
    Function.Injective fun v : BitVec 10 => v.setWidth 32 <<< 21 := by
  intro v v' h
  have e := congrArg BitVec.toNat h
  simp only [BitVec.toNat_shiftLeft, BitVec.toNat_setWidth, Nat.shiftLeft_eq] at e
  exact BitVec.eq_of_toNat_eq (by omega)

theorem inClass_iff (w : Word) : inClass w = true ↔ w.extractLsb' 21 10 = 0b1001011001#10 := by
  have pattern : 0x4B200000#32 = (0b1001011001#10).setWidth 32 <<< 21 := by decide
  rw [inClass, beq_iff_eq, and_classMask, pattern]
  exact setWidth_shiftLeft_21_injective.eq_iff

/-! ### The decoder on a word of the class (30_encoding.md R75) -/

theorem decode_of_imm3_gt {w : Word} (hc : inClass w = true) (h : 4 < (fieldImm3 w).toNat) :
    decode w = .error .undefined := by
  simp [decode, hc, h]

theorem decode_of_imm3_le {w : Word} (hc : inClass w = true) (h : (fieldImm3 w).toNat ≤ 4) :
    decode w = .ok (subInstr (fieldSf w) (fieldRd w).toFin (fieldRn w).toFin (fieldRm w).toFin
      (decodeRegExtend (fieldOption w)) (fieldImm3 w).toFin) := by
  simp [decode, hc, Nat.not_lt.2 h]

/-! ### The fields as numbers (30_encoding.md R71) -/

theorem toNat_fieldRd (w : Word) : (fieldRd w).toNat = w.toNat % 32 := by
  simp [fieldRd, BitVec.extractLsb'_toNat]

theorem toNat_fieldRn (w : Word) : (fieldRn w).toNat = w.toNat / 2 ^ 5 % 32 := by
  simp [fieldRn, BitVec.extractLsb'_toNat, Nat.shiftRight_eq_div_pow]

theorem toNat_fieldRm (w : Word) : (fieldRm w).toNat = w.toNat / 2 ^ 16 % 32 := by
  simp [fieldRm, BitVec.extractLsb'_toNat, Nat.shiftRight_eq_div_pow]

theorem fieldSf_iff (w : Word) : fieldSf w = true ↔ w.toNat / 2 ^ 31 % 2 = 1 := by
  simp [fieldSf, BitVec.getLsbD, Nat.testBit_eq_decide_div_mod_eq]

end Sys2Proof

namespace Sys2Proof.Machine

/-- The step on a fetched word that decodes to no instruction (70_reset_and_hazards.md R143). -/
theorem step_of_decode_error {s : State} {w : Word} {r : Rejection} (hf : fetch s = .ok w)
    (hd : decode w = .error r) : step s = rejected r w s := by
  simp [step, hf, hd]

/-- Only the fault of a shift above 4 looks at the instruction's word. -/
theorem subExtended_word_congr {shift : Fin 8} (h : shift.val ≤ 4) (w : Nat) (word word' : Word) (d n m : RegNum)
    (ext : ExtendType) (s : State) :
    subExtended w word d n m ext shift s = subExtended w word' d n m ext shift s := by
  simp [subExtended, Nat.not_lt.2 h]

/-- The amounts that assemble (30_encoding.md R86), and the shift they give. -/
theorem amountShift_eq_some_iff (a : Nat) (shift : Fin 8) :
    amountShift a = some shift ↔ a ≤ 4 ∧ shift.val = a := by
  unfold amountShift
  split
  · next h => simp only [Option.some.injEq, Fin.ext_iff]; omega
  · next h => simp only [reduceCtorEq, false_iff]; omega

theorem amountShift_isSome_iff (a : Nat) : (amountShift a).isSome = true ↔ a ≤ 4 := by
  simp only [Option.isSome_iff_exists, amountShift_eq_some_iff]
  exact ⟨fun ⟨_, h, _⟩ => h, fun h => ⟨⟨a, by omega⟩, h, rfl⟩⟩

/-- Settles O3: imm3 above 4 is the decoder's Undefined on every word of the class, a step on such a word answers
`rejected`, which is the fault, and the assembler's amounts are those that decode. -/
theorem shiftAboveFourIsUndefined : Obligations.ShiftAboveFourIsUndefined := by
  unfold Obligations.ShiftAboveFourIsUndefined
  refine ⟨fun w hw => ⟨fun hi => ?_, fun hi => ?_⟩, amountShift_isSome_iff⟩
  · have hd := decode_of_imm3_gt ((inClass_iff w).2 hw) hi
    exact ⟨hd, fun s hf => step_of_decode_error hf hd⟩
  · exact ⟨_, decode_of_imm3_le ((inClass_iff w).2 hw) hi⟩

/-- Settles O4: the operands are the decoder's fields, read as numbers; the datasize is that of the encoding which
`sf` selects, and at a shift of at most 4 the meaning does not look at the word. -/
theorem operandFieldsAreUnsigned : Obligations.OperandFieldsAreUnsigned := by
  unfold Obligations.OperandFieldsAreUnsigned
  intro w hw hi
  refine ⟨_, _, _, _, toNat_fieldRd w, toNat_fieldRn w, toNat_fieldRm w,
    decode_of_imm3_le ((inClass_iff w).2 hw) hi, fun s => ?_⟩
  rw [exec_subInstr]
  simp only [fieldSf_iff]
  exact subExtended_word_congr hi _ _ _ _ _ _ _ s

end Sys2Proof.Machine
end

section
/-!
PROOFS. What assembles, said once (30_encoding.md R80 to R87): a statement assembles to an instruction exactly when its
two register positions, its operand tail and its second source read as that instruction's operands.
-/
namespace Sys2Proof

theorem subInstr_inj {b b' : Bool} {d n m d' n' m' : RegNum} {ext ext' : ExtendType} {shift shift' : Fin 8} :
    subInstr b d n m ext shift = subInstr b' d' n' m' ext' shift' ↔
      b = b' ∧ d = d' ∧ n = n' ∧ m = m' ∧ ext = ext' ∧ shift = shift' := by
  cases b <;> cases b' <;> simp [subInstr]

@[simp] theorem fieldImm3_encodeWord_subInstr (is64 : Bool) (d n m : RegNum) (ext : ExtendType) (shift : Fin 8) :
    fieldImm3 (encodeWord (subInstr is64 d n m ext shift)) = BitVec.ofFin shift := by
  cases is64 <;> simp [subInstr, encodeWord]

@[simp] theorem fieldOption_encodeWord_subInstr (is64 : Bool) (d n m : RegNum) (ext : ExtendType) (shift : Fin 8) :
    fieldOption (encodeWord (subInstr is64 d n m ext shift)) = encodeRegExtend ext := by
  cases is64 <;> simp [subInstr, encodeWord]

end Sys2Proof

namespace Sys2Proof.Machine

/-! ### The operand tail (30_encoding.md R85, R86) -/

/-- The three tails that assemble: none, LSL with its amount, or a plain name with an amount that defaults to 0. -/
theorem tailFields_eq_some {is64 spReg : Bool} {e : Option ExtendName} {a : Option Nat} {ext : ExtendType}
    {shift : Fin 8} (h : tailFields is64 spReg e a = some (ext, shift)) :
    (e = none ∧ a = none ∧ spReg = true ∧ ext = lslExtend is64 ∧ shift = 0) ∨
    (e = some .lsl ∧ a = some shift.val ∧ spReg = true ∧ ext = lslExtend is64 ∧ shift.val ≤ 4) ∨
    (e = some (.named ext) ∧ a.getD 0 = shift.val ∧ shift.val ≤ 4) := by
  match e, a with
  | none, none => left; simpa [tailFields, eq_comm] using h
  | none, some _ => simp [tailFields] at h
  | some .lsl, none => simp [tailFields] at h
  | some .lsl, some a =>
    simp only [tailFields, Option.ite_none_right_eq_some, Option.map_eq_some_iff, Prod.mk.injEq,
      amountShift_eq_some_iff] at h
    obtain ⟨hsp, shift', ⟨hle, hv⟩, rfl, rfl⟩ := h
    exact .inr (.inl ⟨rfl, by rw [hv], hsp, rfl, by omega⟩)
  | some (.named ext'), a =>
    simp only [tailFields, Option.map_eq_some_iff, Prod.mk.injEq, amountShift_eq_some_iff] at h
    obtain ⟨shift', ⟨hle, hv⟩, rfl, rfl⟩ := h
    exact .inr (.inr ⟨rfl, hv.symm, by omega⟩)

theorem tailFields_lsl {shift : Fin 8} (h : shift.val ≤ 4) (is64 : Bool) :
    tailFields is64 true (some .lsl) (some shift.val) = some (lslExtend is64, shift) := by
  simp [tailFields, (amountShift_eq_some_iff _ shift).2 ⟨h, rfl⟩]

theorem tailFields_omitted (is64 : Bool) : tailFields is64 true none none = some (lslExtend is64, 0) := rfl

theorem tailFields_named_default (is64 spReg : Bool) (ext : ExtendType) :
    tailFields is64 spReg (some (.named ext)) none = tailFields is64 spReg (some (.named ext)) (some 0) := rfl

/-! ### Register names (30_encoding.md R81, R82) -/

@[simp] theorem regOrSpNumber_regOrSpName (is64 : Bool) (r : RegNum) :
    regOrSpNumber is64 (regOrSpName is64 r) = some r := by
  revert is64 r; decide

@[simp] theorem regOrZrNumber_regOrZrName (isX : Bool) (r : RegNum) :
    regOrZrNumber isX (regOrZrName isX r) = some r := by
  revert isX r; decide

/-- A destination or first source belongs to one of the two templates only (30_encoding.md R87). -/
theorem regOrSpNumber_false_of_true {name : RegName} {r : RegNum} (h : regOrSpNumber true name = some r) :
    regOrSpNumber false name = none := by
  cases name <;> simp_all [regOrSpNumber]

/-! ### Assembling (30_encoding.md R87) -/

/-- The statement's parts read, by the template of one encoding, as these operands. -/
def Reads (is64 : Bool) (st : AsmStmt) (d n m : RegNum) (ext : ExtendType) (shift : Fin 8) : Prop :=
  regOrSpNumber is64 st.d = some d ∧ regOrSpNumber is64 st.n = some n ∧
    tailFields is64 (decide (d = 31 ∨ n = 31)) st.extend st.amount = some (ext, shift) ∧
    regOrZrNumber (secondIsX is64 ext) st.m = some m

theorem assembleAs_eq_some_iff (is64 : Bool) (st : AsmStmt) (i : Instr) :
    assembleAs is64 st = some i ↔
      ∃ d n m ext shift, Reads is64 st d n m ext shift ∧ subInstr is64 d n m ext shift = i := by
  unfold assembleAs Reads
  constructor
  · intro h
    split at h
    · next d n hd hn =>
      split at h
      · next ext shift ht =>
        obtain ⟨m, hm, hi⟩ := Option.map_eq_some_iff.1 h
        exact ⟨d, n, m, ext, shift, ⟨hd, hn, ht, hm⟩, hi⟩
      · cases h
    · cases h
  · rintro ⟨d, n, m, ext, shift, ⟨hd, hn, ht, hm⟩, rfl⟩
    simp only [hd, hn, ht, hm, Option.map_some]

/-- The 64-bit template is tried second, but it reads no statement that the 32-bit one does. -/
theorem assemble_eq_some_iff (st : AsmStmt) (i : Instr) :
    assemble st = some i ↔ ∃ is64, assembleAs is64 st = some i := by
  unfold assemble
  cases h : assembleAs false st with
  | none => simp [h]
  | some j =>
    have h64 : assembleAs true st ≠ some i := fun h' => by
      obtain ⟨_, _, _, _, _, ⟨hd, -⟩, -⟩ := (assembleAs_eq_some_iff _ _ _).1 h
      obtain ⟨_, _, _, _, _, ⟨hd', -⟩, -⟩ := (assembleAs_eq_some_iff _ _ _).1 h'
      simp [regOrSpNumber_false_of_true hd'] at hd
    simp [h, h64]

theorem assemble_subInstr_iff (st : AsmStmt) (is64 : Bool) (d n m : RegNum) (ext : ExtendType) (shift : Fin 8) :
    assemble st = some (subInstr is64 d n m ext shift) ↔ Reads is64 st d n m ext shift := by
  simp only [assemble_eq_some_iff, assembleAs_eq_some_iff]
  constructor
  · rintro ⟨_, _, _, _, _, _, h, e⟩
    obtain ⟨rfl, rfl, rfl, rfl, rfl, rfl⟩ := subInstr_inj.1 e
    exact h
  · exact fun h => ⟨_, _, _, _, _, _, h, rfl⟩

/-- Assembling looks at the amount through the operand tail only. -/
theorem assemble_congr_amount {st : AsmStmt} {a a' : Option Nat}
    (h : ∀ is64 spReg, tailFields is64 spReg st.extend a = tailFields is64 spReg st.extend a') :
    assemble { st with amount := a } = assemble { st with amount := a' } := by
  simp only [assemble, assembleAs, h]

/-- Settles O41: of the tails that assemble, each has the amount that goes into imm3, and a plain name reads an omitted
amount as 0. -/
theorem amountRule : Obligations.AmountRule := by
  unfold Obligations.AmountRule
  refine ⟨fun st i h => ?_, fun st ext he => assemble_congr_amount fun is64 spReg => ?_⟩
  · obtain ⟨is64, d, n, m, ext, shift, rfl⟩ := instr_eq_subInstr i
    obtain ⟨-, -, ht, -⟩ := (assemble_subInstr_iff _ _ _ _ _ _ _).1 h
    have himm : ((encodeWord (subInstr is64 d n m ext shift)).extractLsb' 10 3).toNat = shift.val :=
      congrArg BitVec.toNat (fieldImm3_encodeWord_subInstr is64 d n m ext shift)
    rw [himm]
    obtain ⟨he, ha, -, -, rfl⟩ | ⟨he, ha, -, -, hle⟩ | ⟨he, ha, hle⟩ := tailFields_eq_some ht
    · simp [he, ha]
    · simp [he, ha, hle]
    · simp [he, ha, hle]
  · rw [he, tailFields_named_default]

end Sys2Proof.Machine
end

section
/-!
PROOFS. The spellings of the extension (30_encoding.md R83 to R85): which ones assemble, and which one is printed.
-/
namespace Sys2Proof.Machine

section Spellings
variable {is64 : Bool} {d n m : RegNum} {ext : ExtendType} {shift : Fin 8}

/-! ### The printed statement -/

theorem disassemble_subInstr :
    disassemble (subInstr is64 d n m ext shift) = disassembleAs is64 d n m ext shift := by
  cases is64 <;> rfl

/-- Where LSL may stand, the printer does not write the plain name. -/
theorem disassemble_extend_ne_named (hsp : d = 31 ∨ n = 31) :
    (disassemble (subInstr is64 d n m (lslExtend is64) shift)).extend ≠ some (.named ext) := by
  rw [disassemble_subInstr]
  by_cases h0 : shift.val = 0 <;> simp [disassembleAs, preferredTail, hsp, h0]

/-- Where LSL may not stand, the printer writes the plain name. -/
theorem disassemble_extend_eq_named (h : ¬ ((d = 31 ∨ n = 31) ∧ ext = lslExtend is64)) :
    (disassemble (subInstr is64 d n m ext shift)).extend = some (.named ext) := by
  rw [disassemble_subInstr]
  have h' : ¬ (ext = lslExtend is64 ∧ decide (d = 31 ∨ n = 31) = true) :=
    fun ⟨he, hsp⟩ => h ⟨of_decide_eq_true hsp, he⟩
  simp only [disassembleAs, preferredTail, if_neg h']

/-- The printed register names with any tail that reads as the same extension and shift assemble to the instruction. -/
theorem assemble_disassemble_with_tail {e : Option ExtendName} {a : Option Nat}
    (h : tailFields is64 (decide (d = 31 ∨ n = 31)) e a = some (ext, shift)) :
    assemble { disassemble (subInstr is64 d n m ext shift) with extend := e, amount := a } =
      some (subInstr is64 d n m ext shift) := by
  rw [disassemble_subInstr]
  exact (assemble_subInstr_iff _ _ _ _ _ _ _).2
    ⟨regOrSpNumber_regOrSpName is64 d, regOrSpNumber_regOrSpName is64 n, h, regOrZrNumber_regOrZrName _ m⟩

end Spellings

/-- Settles O42: the clauses on a statement that assembles are the three tails of `tailFields_eq_some`; LSL and the
omitted extend assemble because they are tails of the same extension and shift; the last clauses are the printer's. -/
theorem extendSpellings : Obligations.ExtendSpellings := by
  unfold Obligations.ExtendSpellings
  refine ⟨by decide, fun is64 d n m ext shift => ⟨fun st h => ⟨?_, ?_⟩, fun hsp hle he => ?_,
    disassemble_extend_eq_named⟩⟩
  · exact (congrArg decodeRegExtend (fieldOption_encodeWord_subInstr is64 d n m ext shift)).trans
      (decodeRegExtend_encodeRegExtend ext)
  · obtain ⟨-, -, ht, -⟩ := (assemble_subInstr_iff _ _ _ _ _ _ _).1 h
    obtain ⟨he, -, hsp, hext, h0⟩ | ⟨he, -, hsp, hext, -⟩ | ⟨he, -, -⟩ := tailFields_eq_some ht
    · simpa [he, h0] using ⟨of_decide_eq_true hsp, hext⟩
    · simpa [he] using ⟨of_decide_eq_true hsp, hext⟩
    · simp [he]
  · obtain rfl : ext = lslExtend is64 := he
    have hdec : decide (d = 31 ∨ n = 31) = true := decide_eq_true hsp
    refine ⟨assemble_disassemble_with_tail (hdec ▸ tailFields_lsl hle is64), ?_, disassemble_extend_ne_named hsp⟩
    rintro rfl
    exact assemble_disassemble_with_tail (hdec ▸ tailFields_omitted is64)

end Sys2Proof.Machine
end

section
/-!
PROOFS. The value that SUB (extended register) leaves in its destination (40_sub_extended_register.md R100, R101, R104):
the difference of the source values from before the instruction, whatever registers the fields share.
-/
namespace Sys2Proof.Machine

/-! ### The difference and the second source -/

/-- `AddWithCarry(x, NOT(y), '1')` is subtraction (40_sub_extended_register.md R100). -/
@[simp] theorem addWithCarry_not_eq_sub {w : Nat} (a b : BitVec w) : (addWithCarry a (~~~b) true).1 = a - b := by
  have e : (addWithCarry a (~~~b) true).1 = a + ~~~b + 1#w := by
    simp only [addWithCarry, BitVec.ofNat_add, BitVec.ofNat_toNat, BitVec.setWidth_eq, Bool.toNat_true]
  rw [e, BitVec.sub_eq_add_neg, BitVec.neg_eq_not_add, BitVec.add_assoc]

/-- A zero extension selects the low part, extends it and shifts it (40_sub_extended_register.md R101). -/
theorem extendReg_of_unsigned {ext : ExtendType} (h : extendUnsigned ext = true) (m : RegNum) (shift N : Nat)
    (s : State) :
    extendReg m ext shift N s = ((xRead m N s).setWidth (extendLen ext)).setWidth N <<< shift := by
  simp [extendReg, extendValue, extend, h, setWidth_append_zeros]

/-- UXTX with no shift is the whole register. -/
@[simp] theorem extendReg_uxtx_zero (m : RegNum) (s : State) : extendReg m .uxtx 0 64 s = xRead m 64 s := by
  simp [extendReg_of_unsigned (ext := .uxtx) rfl, extendLen]

/-- UXTW with no shift is the zero-extended W register. -/
@[simp] theorem extendReg_uxtw_zero (m : RegNum) (s : State) :
    extendReg m .uxtw 0 64 s = (xRead m 32 s).setWidth 64 := by
  rw [extendReg_of_unsigned rfl, xRead_eq_setWidth m 32]
  simp [extendLen]

/-- UXTB with no shift is the low byte in place. -/
@[simp] theorem extendReg_uxtb_zero (m : RegNum) (s : State) :
    extendReg m .uxtb 0 64 s = xRead m 64 s &&& 0xFF#64 := by
  rw [extendReg_of_unsigned rfl]
  refine BitVec.eq_of_toNat_eq ?_
  simp only [extendLen, BitVec.shiftLeft_zero, BitVec.toNat_setWidth, BitVec.toNat_and, BitVec.toNat_ofNat]
  rw [Nat.and_two_pow_sub_one_eq_mod _ 8]
  omega

/-- Taking away the bits under a mask clears them. -/
theorem sub_and_eq_and_not {w : Nat} (x mask : BitVec w) : x - (x &&& mask) = x &&& ~~~mask := by
  have disjoint : (x &&& ~~~mask) &&& (x &&& mask) = 0#w := by
    ext i; cases h : mask[i] <;> simp [h]
  have whole : x &&& ~~~mask ||| x &&& mask = x := by
    ext i; cases h : mask[i] <;> simp [h]
  rw [BitVec.sub_eq_iff_eq_add, BitVec.add_eq_or_of_and_eq_zero _ _ disjoint, whole]

/-! ### The destination -/

/-- A meaning that completes leaves the difference in the destination, both sources read in the state before
(40_sub_extended_register.md R104). -/
theorem subExtended_dest {shift : Fin 8} (h : shift.val ≤ 4) (w : Nat) (word : Word) (d n m : RegNum)
    (ext : ExtendType) (s : State) :
    ∃ t, subExtended w word d n m ext shift s = .next t ∧
      (if d = 31 then t.sp else xRead d 64 t) =
        (firstSource n w s - extendReg m ext shift.val w s).setWidth 64 := by
  obtain ⟨hgt, -⟩ | ⟨-, e⟩ := subExtended_cases w word d n m ext shift s
  · omega
  · exact ⟨_, e, by simp [writeDest_value]⟩

theorem exec_sub64_dest {shift : Fin 8} (h : shift.val ≤ 4) (d n m : RegNum) (ext : ExtendType) (s : State) :
    ∃ t, exec (.sub64 d n m ext shift) s = .next t ∧
      (if d = 31 then t.sp else xRead d 64 t) =
        (if n = 31 then s.sp else xRead n 64 s) - extendReg m ext shift.val 64 s := by
  obtain ⟨t, ht, e⟩ := subExtended_dest h 64 (encodeWord (.sub64 d n m ext shift)) d n m ext s
  exact ⟨t, ht, by rw [e, BitVec.setWidth_eq, firstSource, spRead, BitVec.setWidth_eq]⟩

theorem exec_sub32_dest {shift : Fin 8} (h : shift.val ≤ 4) (d n m : RegNum) (ext : ExtendType) (s : State) :
    ∃ t, exec (.sub32 d n m ext shift) s = .next t ∧
      (if d = 31 then t.sp else xRead d 64 t) =
        ((if n = 31 then s.sp.setWidth 32 else xRead n 32 s) - extendReg m ext shift.val 32 s).setWidth 64 :=
  subExtended_dest h 32 _ d n m ext s

/-- Settles O21: the destination's value names the state before only, so shared registers change nothing; the rule's
own cases are instances. -/
theorem readsPrecedeTheWrite : Obligations.ReadsPrecedeTheWrite := by
  unfold Obligations.ReadsPrecedeTheWrite
  refine ⟨fun d n m ext shift s h => ⟨exec_sub64_dest h d n m ext s, ?_⟩, fun s => ⟨?_, ?_, ?_, ?_, ?_⟩⟩
  · obtain ⟨t, ht, e⟩ := exec_sub32_dest h d n m ext s
    exact ⟨t, ht, by simp [e]⟩
  · simpa using exec_sub64_dest (shift := 0) (by decide) 0 0 1 .uxtw s
  · simpa using exec_sub64_dest (shift := 0) (by decide) 1 0 0 .uxtx s
  · simpa [sub_and_eq_and_not] using exec_sub64_dest (shift := 0) (by decide) 1 0 0 .uxtb s
  · simpa using exec_sub64_dest (shift := 0) (by decide) 31 31 1 .uxtx s
  · simpa using exec_sub64_dest (shift := 0) (by decide) 0 31 31 .uxtx s

end Sys2Proof.Machine
end

section
/-!
PROOFS. Everything a step's fault can be (60_exceptions.md R120): the stored mark answered again, or Undefined on a word
that Decode rejects. The fetch raises no fault of its own, and the meaning of a decoded instruction none at all.
-/
namespace Sys2Proof

/-- The words that Decode makes Undefined (30_encoding.md R75), by the bits of the diagram. -/
theorem decode_eq_undefined_iff (w : Word) :
    decode w = .error .undefined ↔ w.extractLsb' 21 10 = 0b1001011001#10 ∧
      ((w.extractLsb' 10 3).toNat = 5 ∨ (w.extractLsb' 10 3).toNat = 6 ∨ (w.extractLsb' 10 3).toNat = 7) := by
  have three : 4 < (fieldImm3 w).toNat ↔
      ((w.extractLsb' 10 3).toNat = 5 ∨ (w.extractLsb' 10 3).toNat = 6 ∨ (w.extractLsb' 10 3).toNat = 7) := by
    have := (w.extractLsb' 10 3).isLt
    unfold fieldImm3; omega
  rw [← inClass_iff, ← three]
  exact ⟨decode_undefined, fun ⟨hc, hi⟩ => decode_of_imm3_gt hc hi⟩

end Sys2Proof

namespace Sys2Proof.Machine

/-- Without a mark whatever stops the fetch is a refusal (60_exceptions.md R124). -/
theorem fetch_ne_fault {s : State} (hm : s.faultMark = none) (f : Fault) : fetch s ≠ .error (.fault f) := by
  unfold fetch
  simp only [hm]
  repeat' split
  all_goals simp

theorem stop_outcome_eq_fault_iff (stop : Stop) (f : Fault) : stop.outcome = .fault f ↔ stop = .fault f := by
  cases stop <;> simp [Stop.outcome]

theorem rejected_eq_fault_iff (r : Rejection) (w : Word) (s : State) (f : Fault) :
    rejected r w s = .fault f ↔ r = .undefined ∧ f = .undefined s.pc w := by
  cases r <;> simp [rejected, raiseUndefined, eq_comm]

/-- An instruction that came from a word completes: Decode has already raised the exception of a shift above 4
(30_encoding.md R75). -/
theorem exec_next_of_decode {w : Word} {i : Instr} (hd : decode w = .ok i) (s : State) :
    ∃ t, exec i s = .next t := by
  obtain ⟨-, hi, rfl⟩ := decode_ok hd
  rw [exec_subInstr]
  exact (subExtended_dest hi ..).imp fun _ h => h.1

/-- Every fault of a step, in any state: the one its fetch answers, or Undefined at the pc on a word that Decode rejects
(70_reset_and_hazards.md R143). -/
theorem step_eq_fault_iff (s : State) (f : Fault) :
    step s = .fault f ↔ fetch s = .error (.fault f) ∨
      ∃ w, fetch s = .ok w ∧ decode w = .error .undefined ∧ f = .undefined s.pc w := by
  cases hf : fetch s with
  | error stop => simp [step, hf, stop_outcome_eq_fault_iff]
  | ok w =>
    cases hd : decode w with
    | error r => simp [step_of_decode_error hf hd, rejected_eq_fault_iff, hd]
    | ok i =>
      obtain ⟨t, ht⟩ := exec_next_of_decode hd s
      simp [step, hf, hd, ht]

/-- Settles O30: of the two faults a step can answer, a state without a mark leaves the one of a rejected word. -/
theorem undefinedIsTheOnlyFault : Obligations.UndefinedIsTheOnlyFault := by
  unfold Obligations.UndefinedIsTheOnlyFault
  intro s f hm
  simp only [step_eq_fault_iff, fetch_ne_fault hm, false_or, decode_eq_undefined_iff, and_assoc]

end Sys2Proof.Machine
end

section
/-!
PROOFS. The word of an instruction as a number, the sum of its shifted fields (30_encoding.md R66, R87): encoding and
decoding are inverse to each other because a word of the class is the same sum of its own fields.
-/
namespace Sys2Proof

/-- Concatenation on numbers: the upper part moved up by the width of the lower one. -/
theorem toNat_append_eq_add {m n : Nat} (x : BitVec m) (y : BitVec n) :
    (x ++ y).toNat = x.toNat * 2 ^ n + y.toNat := by
  rw [BitVec.toNat_append, ← Nat.shiftLeft_add_eq_or_of_lt y.isLt, Nat.shiftLeft_eq]

/-! ### The encoder -/

theorem toNat_encodeFields (sf : BitVec 1) (rm : BitVec 5) (option imm3 : BitVec 3) (rn rd : BitVec 5) :
    (encodeFields sf rm option imm3 rn rd).toNat =
      sf.toNat * 2 ^ 31 + 0x4B200000 + rm.toNat * 2 ^ 16 + option.toNat * 2 ^ 13 + imm3.toNat * 2 ^ 10 +
        rn.toNat * 2 ^ 5 + rd.toNat := by
  simp only [encodeFields, toNat_append_eq_add, BitVec.toNat_ofNat]
  omega

/-- Both encodings fill the one diagram (30_encoding.md R66). -/
theorem encodeWord_subInstr (is64 : Bool) (d n m : RegNum) (ext : ExtendType) (shift : Fin 8) :
    encodeWord (subInstr is64 d n m ext shift) =
      encodeFields (BitVec.ofBool is64) (BitVec.ofFin m) (encodeRegExtend ext) (BitVec.ofFin shift) (BitVec.ofFin n)
        (BitVec.ofFin d) := by
  cases is64 <;> rfl

/-- Settles O7: the sum of the diagram's boxes, `sf` being the encoding. -/
theorem encodedWordIsTheSumOfItsFields : Obligations.EncodedWordIsTheSumOfItsFields := by
  unfold Obligations.EncodedWordIsTheSumOfItsFields
  intro is64 d n m ext shift
  rw [encodeWord_subInstr, toNat_encodeFields]
  cases is64 <;> rfl

theorem subInstr_wf_iff (is64 : Bool) (d n m : RegNum) (ext : ExtendType) (shift : Fin 8) :
    (subInstr is64 d n m ext shift).wf = true ↔ shift.val ≤ 4 := by
  cases is64 <;> simp [subInstr, Instr.wf]

/-- The class is the rows of the opcode table with `sf` free (30_encoding.md R67 to R69). -/
theorem inClass_encodeWord (i : Instr) : inClass (encodeWord i) = true := by
  have sfFree (w : Word) : w &&& 0x7FE00000#32 = w &&& 0xFFE00000#32 &&& 0x7FE00000#32 := by
    rw [BitVec.and_assoc]; rfl
  rw [inClass, beq_iff_eq, sfFree]
  cases i with
  | sub32 d n m ext shift => rw [Laws.FixedBits.sub32 d n m ext shift, Laws.FixedBits.matchOf]; decide
  | sub64 d n m ext shift => rw [Laws.FixedBits.sub64 d n m ext shift, Laws.FixedBits.matchOf]; decide

/-! ### Decoding an encoded instruction -/

theorem decode_encodeWord {i : Instr} (h : i.wf = true) : decode (encodeWord i) = .ok i := by
  have hc := inClass_encodeWord i
  obtain ⟨is64, d, n, m, ext, shift, rfl⟩ := Machine.instr_eq_subInstr i
  have hle : (fieldImm3 (encodeWord (subInstr is64 d n m ext shift))).toNat ≤ 4 := by
    rw [fieldImm3_encodeWord_subInstr]; exact (subInstr_wf_iff ..).1 h
  rw [decode_of_imm3_le hc hle, encodeWord_subInstr]
  cases is64 <;> simp

/-- The stored bytes put together again are the word (20_memory.md R54). -/
theorem wordOfBytes_bytesOfWord (w : Word) :
    wordOfBytes (w.extractLsb' 0 8) (w.extractLsb' 8 8) (w.extractLsb' 16 8) (w.extractLsb' 24 8) = w := by
  refine BitVec.eq_of_toNat_eq ?_
  have := w.isLt
  simp only [wordOfBytes, toNat_append_eq_add, BitVec.extractLsb'_toNat, Nat.shiftRight_eq_div_pow]
  omega

theorem decodeBytes_bytesOfWord_append (w : Word) (rest : List Byte) :
    decodeBytes (bytesOfWord w ++ rest) = (decode w).map fun i => (i, rest) := by
  simp only [bytesOfWord, List.cons_append, List.nil_append, decodeBytes, wordOfBytes_bytesOfWord]
  cases decode w <;> rfl

/-- Settles O5: the fields of an encoded word are the operands it was made of, and its stored bytes are the word. -/
theorem decodeOfEncode : Obligations.DecodeOfEncode := by
  unfold Obligations.DecodeOfEncode
  intro i h
  have hd := decode_encodeWord h
  exact ⟨hd, fun rest => by rw [encode, decodeBytes_bytesOfWord_append, hd]; rfl⟩

/-! ### Encoding a decoded word -/

theorem toNat_ofBool_fieldSf (w : Word) : (BitVec.ofBool (fieldSf w)).toNat = w.toNat / 2 ^ 31 := by
  have hlt := w.isLt
  have hsf := fieldSf_iff w
  rw [BitVec.toNat_ofBool]
  cases h : fieldSf w
  · have : ¬ w.toNat / 2 ^ 31 % 2 = 1 := by simpa [h] using hsf
    simp only [Bool.toNat_false]; omega
  · have : w.toNat / 2 ^ 31 % 2 = 1 := by simpa [h] using hsf
    simp only [Bool.toNat_true]; omega

theorem toNat_fieldOption (w : Word) : (fieldOption w).toNat = w.toNat / 2 ^ 13 % 8 := by
  simp [fieldOption, BitVec.extractLsb'_toNat, Nat.shiftRight_eq_div_pow]

theorem toNat_fieldImm3 (w : Word) : (fieldImm3 w).toNat = w.toNat / 2 ^ 10 % 8 := by
  simp [fieldImm3, BitVec.extractLsb'_toNat, Nat.shiftRight_eq_div_pow]

theorem inClass_toNat {w : Word} (h : inClass w = true) : w.toNat / 2 ^ 21 % 1024 = 0b1001011001 := by
  have e := congrArg BitVec.toNat ((inClass_iff w).1 h)
  simpa [BitVec.extractLsb'_toNat, Nat.shiftRight_eq_div_pow] using e

/-- A word of the class is the diagram filled with its own fields (30_encoding.md R66). -/
theorem encodeFields_of_inClass {w : Word} (h : inClass w = true) :
    encodeFields (BitVec.ofBool (fieldSf w)) (fieldRm w) (fieldOption w) (fieldImm3 w) (fieldRn w) (fieldRd w) = w := by
  refine BitVec.eq_of_toNat_eq ?_
  have hc := inClass_toNat h
  rw [toNat_encodeFields, toNat_ofBool_fieldSf, toNat_fieldRm, toNat_fieldOption, toNat_fieldImm3, toNat_fieldRn,
    toNat_fieldRd]
  omega

theorem encodeWord_of_decode {w : Word} {i : Instr} (h : decode w = .ok i) : encodeWord i = w := by
  obtain ⟨hc, -, rfl⟩ := decode_ok h
  rw [encodeWord_subInstr, encodeRegExtend_decodeRegExtend]
  exact encodeFields_of_inClass hc

theorem wf_of_decode {w : Word} {i : Instr} (h : decode w = .ok i) : i.wf = true := by
  obtain ⟨-, hi, rfl⟩ := decode_ok h
  exact (subInstr_wf_iff ..).2 hi

/-- Settles O6: a decoded word is in the class, so it is the diagram filled with its fields. -/
theorem encodeOfDecode : Obligations.EncodeOfDecode := by
  unfold Obligations.EncodeOfDecode
  exact fun w i h => ⟨encodeWord_of_decode h, wf_of_decode h⟩

/-! ### The range and the verdicts -/

/-- Settles O8: a decoded word is the sum of its fields, each at most its largest value and imm3 at most 4. -/
theorem validWordsLieBetweenLowestAndHighest : Obligations.ValidWordsLieBetweenLowestAndHighest := by
  unfold Obligations.ValidWordsLieBetweenLowestAndHighest
  refine ⟨fun w i h => ?_, by decide, by decide⟩
  obtain ⟨is64, d, n, m, ext, shift, rfl⟩ := Machine.instr_eq_subInstr i
  have hshift : shift.val ≤ 4 := (subInstr_wf_iff ..).1 (wf_of_decode h)
  have hopt := (encodeRegExtend ext).isLt
  have hsum := encodedWordIsTheSumOfItsFields is64 d n m ext shift
  rw [encodeWord_of_decode h] at hsum
  split at hsum <;> omega

theorem decode_eq_notInSpec_iff (w : Word) : decode w = .error .notInSpec ↔ inClass w ≠ true := by
  unfold decode
  split
  · next h => split <;> simp [h]
  · next h => simp [h]

theorem decode_isOk_iff (w : Word) : (∃ i, decode w = .ok i) ↔ inClass w = true ∧ (fieldImm3 w).toNat ≤ 4 :=
  ⟨fun ⟨_, h⟩ => have ⟨hc, hi, _⟩ := decode_ok h; ⟨hc, hi⟩, fun ⟨hc, hi⟩ => ⟨_, decode_of_imm3_le hc hi⟩⟩

/-- Settles O2: the class test is bits 30:21, and each verdict is one branch of the decoder. -/
theorem decoderVerdictsFollowTheDiagram : Obligations.DecoderVerdictsFollowTheDiagram := by
  unfold Obligations.DecoderVerdictsFollowTheDiagram
  intro w
  have hundefined : decode w = .error .undefined ↔ inClass w = true ∧ 4 < (fieldImm3 w).toNat :=
    ⟨decode_undefined, fun ⟨hc, hi⟩ => decode_of_imm3_gt hc hi⟩
  rw [ne_eq, ← inClass_iff]
  exact ⟨Iff.rfl, decode_eq_notInSpec_iff w, hundefined, decode_isOk_iff w, decode_ne_tooFewBytes w⟩

/-- Settles O1, by running the decoder on the seven words. -/
theorem workedWordsDecode : Obligations.WorkedWordsDecode := by
  unfold Obligations.WorkedWordsDecode
  decide

end Sys2Proof
end

section
/-!
PROOFS. AddWithCarry of a complement on exact integers (40_sub_extended_register.md R99, R100): the unsigned sum is
`a - b + 2^N`, the signed sum `a - b`, and the flags compare the narrowed result with them.
-/
namespace Sys2Proof.Machine

/-- Settles O9: the result is `a - b`, and its unsigned value the difference modulo 2^N. -/
theorem addWithCarryOfNotIsSubtraction : Obligations.AddWithCarryOfNotIsSubtraction := by
  unfold Obligations.AddWithCarryOfNotIsSubtraction
  intro N a b
  have wrap : ((a.toNat : Int) - b.toNat) % 2 ^ N = (2 ^ N - b.toNat + a.toNat) % 2 ^ N := by
    rw [← Int.add_emod_left]; ring_nf
  rw [addWithCarry_not_eq_sub, BitVec.toNat_sub, wrap]
  push_cast [b.isLt.le]
  rfl

/-! ### The exact sums -/

theorem unsignedSum_of_not {w : Nat} (a b : BitVec w) :
    a.toNat + (~~~b).toNat + true.toNat = a.toNat + 2 ^ w - b.toNat := by
  have := b.isLt
  rw [BitVec.toNat_not, Bool.toNat_true]
  omega

theorem toInt_not_eq {w : Nat} (hw : 0 < w) (b : BitVec w) : (~~~b).toInt = -b.toInt - 1 := by
  have := b.isLt
  rw [BitVec.toInt_eq_msb_cond, BitVec.toInt_eq_msb_cond, BitVec.msb_not, BitVec.toNat_not]
  simp only [hw, decide_true, Bool.true_and, Bool.not_eq_true']
  cases b.msb <;> simp only [Bool.false_eq_true, if_true, if_false, Bool.true_eq_false] <;> omega

theorem signedSum_of_not {w : Nat} (hw : 0 < w) (a b : BitVec w) :
    a.toInt + (~~~b).toInt + (true.toNat : Int) = a.toInt - b.toInt := by
  rw [toInt_not_eq hw, Bool.toNat_true]
  omega

theorem addWithCarry_not {w : Nat} (hw : 0 < w) (a b : BitVec w) :
    addWithCarry a (~~~b) true = (a - b, nzcvOf (a - b) (a.toNat + 2 ^ w - b.toNat) (a.toInt - b.toInt)) := by
  refine Prod.ext (addWithCarry_not_eq_sub a b) ?_
  rw [← signedSum_of_not hw, ← unsignedSum_of_not, ← addWithCarry_not_eq_sub a b]
  rfl

/-! ### The flags -/

section Nzcv
variable {w : Nat} (result : BitVec w) (unsignedSum : Nat) (signedSum : Int)

theorem nzcvOf_n : (nzcvOf result unsignedSum signedSum).getLsbD 3 = result.msb := by
  simp only [nzcvOf, BitVec.getLsbD_append]; simp

theorem nzcvOf_z : (nzcvOf result unsignedSum signedSum).getLsbD 2 = true ↔ result = 0#w := by
  simp only [nzcvOf, BitVec.getLsbD_append]; simp

theorem nzcvOf_c : (nzcvOf result unsignedSum signedSum).getLsbD 1 = true ↔ result.toNat ≠ unsignedSum := by
  simp only [nzcvOf, BitVec.getLsbD_append]; simp

theorem nzcvOf_v : (nzcvOf result unsignedSum signedSum).getLsbD 0 = true ↔ result.toInt ≠ signedSum := by
  simp only [nzcvOf, BitVec.getLsbD_append]; simp

end Nzcv

/-- The narrowed difference loses `2^w` exactly when there is no borrow. -/
theorem toNat_sub_ne_sum_iff {w : Nat} (a b : BitVec w) :
    (a - b).toNat ≠ a.toNat + 2 ^ w - b.toNat ↔ b.toNat ≤ a.toNat := by
  have ha := a.isLt
  have hb := b.isLt
  rw [BitVec.toNat_sub]
  by_cases h : b.toNat ≤ a.toNat
  · rw [Nat.mod_eq_sub_mod (by omega), Nat.mod_eq_of_lt (by omega)]; omega
  · rw [Nat.mod_eq_of_lt (by omega)]; omega

/-- The narrowed difference is the exact one unless that one is outside the signed range. -/
theorem toInt_sub_ne_diff_iff {w : Nat} (a b : BitVec w) :
    (a - b).toInt ≠ a.toInt - b.toInt ↔
      a.toInt - b.toInt < -(2 : Int) ^ (w - 1) ∨ (2 : Int) ^ (w - 1) ≤ a.toInt - b.toInt := by
  constructor
  · intro hne
    by_contra hin
    refine hne (BitVec.toInt_sub_of_not_ssubOverflow ?_)
    simpa [BitVec.ssubOverflow, and_comm] using hin
  · intro hout heq
    have hlo := (a - b).le_toInt
    have hhi := (a - b).toInt_lt
    omega

/-- Settles O10: each flag of the subtraction's exact sums. -/
theorem addWithCarryFlagsOfSubtraction : Obligations.AddWithCarryFlagsOfSubtraction := by
  unfold Obligations.AddWithCarryFlagsOfSubtraction
  intro N a b hN
  rw [addWithCarry_not hN, nzcvOf_n, nzcvOf_z, nzcvOf_c, nzcvOf_v]
  exact ⟨rfl, sub_eq_zero, toNat_sub_ne_sum_iff a b, toInt_sub_ne_diff_iff a b⟩

end Sys2Proof.Machine
end

section
/-!
PROOFS. ExtendReg in closed form (40_sub_extended_register.md R101): take the part the extension names, extend it, shift
it left. What the second source depends on can be read off this form.
-/
namespace Sys2Proof.Machine

theorem extendLen_pos (ext : ExtendType) : 0 < extendLen ext := by
  cases ext <;> decide

/-- The clamp of ExtendReg only drops bits that the shift moves out (40_sub_extended_register.md R98). -/
theorem extendReg_eq_extend_shiftLeft (m : RegNum) (ext : ExtendType) (shift N : Nat) (s : State) :
    extendReg m ext shift N s =
      extend ((xRead m N s).setWidth (extendLen ext)) N (extendUnsigned ext) <<< shift := by
  cases h : extendUnsigned ext
  · simp [extendReg, extendValue, extend, h, signExtend_append_zeros _ _ _ (extendLen_pos ext)]
  · simp [extend, extendReg_of_unsigned h]

/-- The zero register extends to zero (10_state.md R33). -/
@[simp] theorem extendReg_31 (ext : ExtendType) (shift N : Nat) (s : State) : extendReg 31 ext shift N s = 0#N := by
  rw [extendReg_eq_extend_shiftLeft, xRead_31, extend]
  split
  · simp
  · simp [BitVec.signExtend_eq_setWidth_of_msb_false]

/-- An extension from at least the datasize is no extension (90_conflicts.md C5). -/
theorem extendReg_of_le_extendLen {ext : ExtendType} {N : Nat} (h : N ≤ extendLen ext) (m : RegNum) (shift : Nat)
    (s : State) : extendReg m ext shift N s = xRead m N s <<< shift := by
  rw [extendReg_eq_extend_shiftLeft, extend]
  split
  · rw [BitVec.setWidth_setWidth_of_le _ h, BitVec.setWidth_eq]
  · rw [BitVec.signExtend_eq_setWidth_of_le _ h, BitVec.setWidth_setWidth_of_le _ h, BitVec.setWidth_eq]

/-- The second source looks only at the part its extension names. -/
theorem extendReg_congr {m : RegNum} {ext : ExtendType} {N : Nat} {s s' : State}
    (h : (xRead m N s).setWidth (extendLen ext) = (xRead m N s').setWidth (extendLen ext)) (shift : Nat) :
    extendReg m ext shift N s = extendReg m ext shift N s' := by
  rw [extendReg_eq_extend_shiftLeft, extendReg_eq_extend_shiftLeft, h]

/-- Settles O11: the closed form at each option value. -/
theorem extendRegClosedForm64 : Obligations.ExtendRegClosedForm64 := by
  unfold Obligations.ExtendRegClosedForm64
  intro m shift s _ v
  have hv : v = xRead m 64 s := by
    by_cases h : m = 31 <;> simp [v, h]
  rw [hv]
  refine ⟨?_, ?_, ?_, extendReg_of_le_extendLen le_rfl .., ?_, ?_, ?_, extendReg_of_le_extendLen le_rfl ..⟩
  all_goals exact extendReg_eq_extend_shiftLeft ..

/-- Settles O12: the closed form at each option value; the word and doubleword extensions have nothing to extend. -/
theorem extendRegClosedForm32 : Obligations.ExtendRegClosedForm32 := by
  unfold Obligations.ExtendRegClosedForm32
  intro m shift s _ v
  have hv : v = xRead m 32 s := by
    by_cases h : m = 31 <;> simp [v, h, xRead_eq_setWidth m 32]
  have full (ext : ExtendType) (h : 32 ≤ extendLen ext) := extendReg_of_le_extendLen h m shift s
  rw [hv]
  refine ⟨?_, ?_, full .uxtw (by decide), full .uxtx (by decide), ?_, ?_, full .sxtw (by decide),
    full .sxtx (by decide)⟩
  all_goals exact extendReg_eq_extend_shiftLeft ..

end Sys2Proof.Machine
end

section
/-!
PROOFS. The next state of SUB (extended register) for shifts 0 to 4 (40_sub_extended_register.md R95, R96): the
destination gets the difference, the pc advances, and everything else is as before.
-/
namespace Sys2Proof.Machine

/-! ### The one next state -/

section NextState
variable (d n m : RegNum) (ext : ExtendType) (shift : Fin 8) (s : State)

/-- The shared meaning completes for every shift that Decode admits. -/
theorem subExtended_of_shift_le (h : shift.val ≤ 4) (w : Nat) (word : Word) :
    subExtended w word d n m ext shift s =
      .next (advancePc (writeDest d false (firstSource n w s - extendReg m ext shift.val w s) s)) := by
  obtain ⟨hgt, -⟩ | ⟨-, e⟩ := subExtended_cases w word d n m ext shift s
  · omega
  · rw [e, addWithCarry_not_eq_sub]

theorem exec_sub32_of_shift_le (h : shift.val ≤ 4) :
    exec (.sub32 d n m ext shift) s =
      .next (advancePc (writeDest d false (firstSource n 32 s - extendReg m ext shift.val 32 s) s)) :=
  subExtended_of_shift_le d n m ext shift s h 32 _

theorem exec_sub64_of_shift_le (h : shift.val ≤ 4) :
    exec (.sub64 d n m ext shift) s =
      .next (advancePc (writeDest d false (firstSource n 64 s - extendReg m ext shift.val 64 s) s)) :=
  subExtended_of_shift_le d n m ext shift s h 64 _

end NextState

/-- The next state, field by field. -/
theorem advancePc_writeDest (d : RegNum) {w : Nat} (r : BitVec w) (s : State) :
    advancePc (writeDest d false r s) =
      if h : d.val < 31 then { s with x := s.x.set d.val (r.setWidth 64), pc := s.pc + 4#64 }
      else { s with sp := r.setWidth 64, pc := s.pc + 4#64 } := by
  split
  · next h =>
    have hd : d ≠ 31 := by rintro rfl; simp at h
    rw [writeDest_x_form hd, xWrite_of_lt h, advancePc]
  · next h =>
    obtain rfl : d = 31 := not_imp_comm.1 regNum_lt_of_ne h
    rw [writeDest_sp_form, spWrite, advancePc]

/-- The difference as the exact integers modulo `2^w`, zero-extended. -/
theorem ofInt_diff_emod {w : Nat} (a b : BitVec w) :
    BitVec.ofInt 64 (((a.toNat : Int) - (b.toNat : Int)) % (2 : Int) ^ w) = (a - b).setWidth 64 := by
  rw [← addWithCarryOfNotIsSubtraction, addWithCarry_not_eq_sub, BitVec.ofInt_natCast, BitVec.ofNat_toNat]

theorem firstSource_64 (n : RegNum) (s : State) :
    firstSource n 64 s = if n = 31 then s.sp else xRead n 64 s := by
  rw [firstSource, spRead, BitVec.setWidth_eq]

/-- Both datasizes read the same source, the 32-bit one its low half (10_state.md R31, R36). -/
theorem firstSource_eq_setWidth (n : RegNum) (w : Nat) (s : State) :
    firstSource n w s = (if n = 31 then s.sp else xRead n 64 s).setWidth w := by
  rw [firstSource, spRead, xRead_eq_setWidth n w, apply_ite (BitVec.setWidth w)]

/-- Settles O13: the shared meaning's next state at datasize 32. -/
theorem sub32CompletesWithTheDifference : Obligations.Sub32CompletesWithTheDifference := by
  unfold Obligations.Sub32CompletesWithTheDifference
  intro d n m ext shift s h operand1 operand2 result
  have hresult : result = (operand1 - operand2).setWidth 64 := ofInt_diff_emod operand1 operand2
  rw [exec_sub32_of_shift_le d n m ext shift s h, advancePc_writeDest, hresult]
  rfl

/-- Settles O14: the shared meaning's next state at datasize 64. -/
theorem sub64CompletesWithTheDifference : Obligations.Sub64CompletesWithTheDifference := by
  unfold Obligations.Sub64CompletesWithTheDifference
  intro d n m ext shift s h operand1 operand2 result
  have hresult : result = (operand1 - operand2).setWidth 64 := ofInt_diff_emod operand1 operand2
  rw [exec_sub64_of_shift_le d n m ext shift s h, advancePc_writeDest, hresult, firstSource_64]

/-- Settles O15: the shared meaning has the fault and the one next state, told apart by the shift. -/
theorem execStopsOnlyOnTheShift : Obligations.ExecStopsOnlyOnTheShift := by
  unfold Obligations.ExecStopsOnlyOnTheShift
  intro is64 d n m ext shift s
  rw [exec_subInstr]
  refine ⟨fun hgt => ?_, fun hle => ⟨_, subExtended_of_shift_le d n m ext shift s hle _ _⟩⟩
  rw [subExtended, if_pos hgt, raiseUndefined]

/-! ### The frame (10_state.md R42) -/

/-- A next state of an instruction is the write of its own destination and the pc's advance. -/
theorem exec_subInstr_next {is64 : Bool} {d n m : RegNum} {ext : ExtendType} {shift : Fin 8} {s t : State}
    (h : exec (subInstr is64 d n m ext shift) s = .next t) :
    ∃ (w : Nat) (r : BitVec w), t = advancePc (writeDest d false r s) := by
  rw [exec_subInstr] at h
  obtain ⟨-, e⟩ | ⟨-, e⟩ := subExtended_cases (if is64 then 64 else 32) (encodeWord (subInstr is64 d n m ext shift))
    d n m ext shift s
  · rw [e] at h; cases h
  · rw [e] at h; cases h; exact ⟨_, _, rfl⟩

theorem xRead_writeDest_other {k d : RegNum} (h : k ≠ d) (r : Nat) {w : Nat} (v : BitVec w) (s : State) :
    xRead k r (writeDest d false v s) = xRead k r s := by
  by_cases hd : d = 31
  · subst hd; rw [writeDest_sp_form, xRead_spWrite]
  · rw [writeDest_x_form hd, xRead_xWrite_other h]

/-- Settles O16: the frame of the destination write. -/
theorem subFrame : Obligations.SubFrame := by
  unfold Obligations.SubFrame
  intro is64 d n m ext shift s t h
  obtain ⟨w, r, rfl⟩ := exec_subInstr_next h
  refine ⟨fun k hk => ?_, fun hd => ?_, fun hd => ?_, ?_, ?_, fun a => ?_, ?_, ?_⟩
  · rw [xRead_advancePc, xRead_writeDest_other hk]
  · subst hd; rw [advancePc_x, writeDest_sp_form, spWrite_x]
  · rw [advancePc_sp, writeDest_x_form hd, xWrite_sp]
  all_goals simp

/-! ### What the destination depends on -/

/-- Settles O17: the zero register extends to zero, so the difference is the first source. -/
theorem zeroRegisterSourceCopiesTheFirst : Obligations.ZeroRegisterSourceCopiesTheFirst := by
  unfold Obligations.ZeroRegisterSourceCopiesTheFirst
  intro d n ext shift s h a
  refine ⟨?_, ?_⟩
  · simpa using exec_sub64_dest h d n 31 ext s
  · refine ⟨_, exec_sub32_of_shift_le d n 31 ext shift s h, ?_⟩
    simp [writeDest_value, firstSource_eq_setWidth, a]

/-- Settles O18: at datasize 32 all four extend nothing, so the second sources are equal. -/
theorem fullWidthExtendsAgreeAt32 : Obligations.FullWidthExtendsAgreeAt32 := by
  unfold Obligations.FullWidthExtendsAgreeAt32
  intro d n m ext shift s h hext
  have hlen : 32 ≤ extendLen ext := by
    obtain rfl | rfl | rfl := hext <;> decide
  refine ⟨_, exec_sub32_of_shift_le d n m ext shift s h, ?_⟩
  rw [exec_sub32_of_shift_le d n m .uxtw shift s h, extendReg_of_le_extendLen hlen,
    extendReg_of_le_extendLen (show 32 ≤ extendLen .uxtw from le_rfl)]

/-- Settles O19: at datasize 32 both sources are functions of the low halves. -/
theorem sub32IgnoresUpperHalves : Obligations.Sub32IgnoresUpperHalves := by
  unfold Obligations.Sub32IgnoresUpperHalves
  intro d n m ext shift s s' h hn hm
  have first : firstSource n 32 s = firstSource n 32 s' := by
    rw [firstSource_eq_setWidth, firstSource_eq_setWidth, hn]
  have second : extendReg m ext shift.val 32 s = extendReg m ext shift.val 32 s' := by
    rw [extendReg, extendReg, xRead_eq_setWidth m 32 s, xRead_eq_setWidth m 32 s', hm]
  refine ⟨_, _, exec_sub32_of_shift_le d n m ext shift s h, exec_sub32_of_shift_le d n m ext shift s' h, ?_⟩
  simp only [advancePc_sp, xRead_advancePc, writeDest_value, first, second]

/-- Settles O20: the second source is a function of the part its extension names. -/
theorem sub64LooksOnlyAtTheExtendedPart : Obligations.Sub64LooksOnlyAtTheExtendedPart := by
  unfold Obligations.Sub64LooksOnlyAtTheExtendedPart
  intro d n m ext shift s s' h hn hm
  obtain ⟨t, ht, e⟩ := exec_sub64_dest h d n m ext s
  obtain ⟨t', ht', e'⟩ := exec_sub64_dest h d n m ext s'
  exact ⟨t, t', ht, ht', by rw [e, e', hn, extendReg_congr hm]⟩

end Sys2Proof.Machine
end

section
/-!
PROOFS. What the fetch answers, one lemma per stop (70_reset_and_hazards.md R143), and what a step does with a fetched
word.
-/
namespace Sys2Proof.Machine

/-! ### The stops of the fetch -/

section FetchStops
variable {s : State}

theorem fetch_of_mark {mark : FaultMark} (h : s.faultMark = some mark) :
    fetch s = .error (.fault (.undefined mark.pc mark.word)) := by
  simp [fetch, h]

theorem fetch_of_misaligned (hm : s.faultMark = none) (h : s.progBase.toNat % 4 ≠ 0) :
    fetch s = .error (.refusal (.misalignedProgBase s.progBase)) := by
  simp [fetch, hm, h]

theorem fetch_of_pastTop (hm : s.faultMark = none) (ha : s.progBase.toNat % 4 = 0)
    (h : Config.addressSpace < s.progBase.toNat + 4 * s.progLen) :
    fetch s = .error (.refusal (.programPastTop s.progBase s.progLen)) := by
  simp [fetch, hm, ha, h]

theorem fetch_of_ended (h : ended s) : fetch s = .error (.refusal (.runEnded s.pc)) := by
  obtain ⟨hm, ⟨ha, hb⟩, he⟩ := h
  simp [fetch, hm, ha, Nat.not_lt.2 hb, he]

theorem fetch_of_programIndex_none (hm : s.faultMark = none) (hp : placementOk s) (he : s.pc ≠ programEnd s)
    (hk : programIndex s = none) : fetch s = .error (.refusal (.fetchOutsideProgram s.pc)) := by
  obtain ⟨ha, hb⟩ := hp
  simp [fetch, hm, ha, Nat.not_lt.2 hb, he, hk]

theorem step_of_fetch_error {stop : Stop} (h : fetch s = .error stop) : step s = stop.outcome := by
  rw [step, h]

theorem step_of_decode_ok {w : Word} {i : Instr} (hf : fetch s = .ok w) (hd : decode w = .ok i) :
    step s = exec i s := by
  rw [step, hf]; simp only [hd]

/-- A pc that is the address of no word has no index. -/
theorem programIndex_eq_none (h : ∀ k, k < s.progLen → s.pc ≠ programAddr k s) : programIndex s = none :=
  Option.eq_none_iff_forall_ne_some.2 fun k hk =>
    have ⟨hlt, hpc⟩ := programIndex_some hk
    h k hlt hpc

end FetchStops

/-- Settles O25: an address other than every word's has no index, and it is not the end. -/
theorem fetchOutsideProgramIsRefused : Obligations.FetchOutsideProgramIsRefused := by
  unfold Obligations.FetchOutsideProgramIsRefused
  intro s hm hp h
  have hk : programIndex s = none := programIndex_eq_none fun k hk => h k hk.le
  exact step_of_fetch_error (fetch_of_programIndex_none hm hp (h s.progLen le_rfl) hk)

/-- Settles O26: the fetch looks at the placement first. -/
theorem badPlacementIsRefused : Obligations.BadPlacementIsRefused := by
  unfold Obligations.BadPlacementIsRefused
  exact fun s hm => ⟨fun h => step_of_fetch_error (fetch_of_misaligned hm h),
    fun ha h => step_of_fetch_error (fetch_of_pastTop hm ha h)⟩

/-! ### The step on a fetched word -/

/-- The bytes that decode to an instruction, with none left over, are the four of its word (30_encoding.md R65). -/
theorem decodeBytes_ok {bytes rest : List Byte} {i : Instr} (h : decodeBytes bytes = .ok (i, rest)) :
    ∃ b0 b1 b2 b3, bytes = b0 :: b1 :: b2 :: b3 :: rest ∧ decode (wordOfBytes b0 b1 b2 b3) = .ok i := by
  unfold decodeBytes at h
  split at h
  · next b0 b1 b2 b3 _ =>
    split at h
    · next j hj => cases h; exact ⟨b0, b1, b2, b3, rfl, hj⟩
    · cases h
  · cases h

theorem programWord_of_memRead {s : State} {k : Nat} {b0 b1 b2 b3 : Byte}
    (h : memRead s.mem (programAddr k s) 4 = some [b0, b1, b2, b3]) :
    programWord k s = some (wordOfBytes b0 b1 b2 b3) := by
  simp [programWord, h]

/-- Settles O27: the four bytes are the word at the pc's index, which is fetched, decoded and run. -/
theorem stepRunsTheDecodedInstruction : Obligations.StepRunsTheDecodedInstruction := by
  unfold Obligations.StepRunsTheDecodedInstruction
  intro s k bytes i hm hp he hk hpc hread hdec
  obtain ⟨b0, b1, b2, b3, rfl, hd⟩ := decodeBytes_ok hdec
  have hw : programWord k s = some (wordOfBytes b0 b1 b2 b3) := programWord_of_memRead (hpc ▸ hread)
  exact step_of_decode_ok (fetch_of_programWord hm hp he (programIndex_at hp hk hpc) hw) hd

/-- Settles O28: outside the class the decoder's verdict is not-in-spec. -/
theorem unspecifiedWordIsRefused : Obligations.UnspecifiedWordIsRefused := by
  unfold Obligations.UnspecifiedWordIsRefused
  intro s w hf hw
  have hd : decode w = .error .notInSpec := (decode_eq_notInSpec_iff w).2 fun hc => hw ((inClass_iff w).1 hc)
  exact step_of_decode_error hf hd

/-! ### What every step keeps -/

/-- A step that answers a next state fetched a word of PROGRAM, and changed the destination and the pc only. -/
theorem step_next_cases {s t : State} (h : step s = .next t) :
    s.faultMark = none ∧ placementOk s ∧ (∃ k, k < s.progLen ∧ s.pc = programAddr k s) ∧
      ∃ (d : RegNum) (w : Nat) (r : BitVec w), t = advancePc (writeDest d false r s) := by
  obtain ⟨w, i, hf, -, hx⟩ := step_next h
  obtain ⟨hm, hp, -, k, hk, -⟩ := fetch_ok hf
  exact ⟨hm, hp, ⟨k, programIndex_some hk⟩, exec_next hx⟩

/-- Settles O29: the destination write and the pc's advance touch none of it. -/
theorem stepLeavesProgramAndPstate : Obligations.StepLeavesProgramAndPstate := by
  unfold Obligations.StepLeavesProgramAndPstate
  intro s t h
  obtain ⟨hm, -, -, d, w, r, rfl⟩ := step_next_cases h
  simp [hm]

theorem withDit_eq_mapPState (dit : Bool) : withDit dit = mapPState fun p => { p with dit := dit } := rfl

/-- Settles O23: a change of DIT is a change of PSTATE, which commutes with every step, and a step carries PSTATE. -/
theorem ditChangesNoResult : Obligations.DitChangesNoResult := by
  unfold Obligations.DitChangesNoResult
  refine fun dit s => ⟨?_, fun t h => ?_⟩
  · rw [withDit_eq_mapPState]; exact step_mapPState _ s
  · obtain ⟨-, -, -, hpstate, -⟩ := stepLeavesProgramAndPstate s t h
    rw [hpstate]

end Sys2Proof.Machine
end

section
/-!
PROOFS. How a run stops (70_reset_and_hazards.md R143, R144; 60_exceptions.md R122): at its end, at an undefined word,
at a fault mark; and the state after reset.
-/
namespace Sys2Proof.Machine

/-! ### Ended, faulted, going on -/

theorem runFor_of_ended {s : State} (h : ended s) (k : Nat) : runFor k s = .final s := by
  cases k <;> rw [runFor, if_pos h]

theorem runFor_zero_of_not_ended {s : State} (h : ¬ ended s) : runFor 0 s = .running s := by
  rw [runFor, if_neg h]

theorem runFor_succ_of_fault {s : State} {f : Fault} (he : ¬ ended s) (h : step s = .fault f) (k : Nat) :
    runFor (k + 1) s = .faulted (recordFault f s) := by
  rw [runFor, if_neg he, h]

theorem step_of_ended {s : State} (h : ended s) : step s = .refused (.runEnded s.pc) :=
  step_of_fetch_error (fetch_of_ended h)

/-- A state that takes a step has not ended. -/
theorem runFor_succ_of_next {s t : State} (h : step s = .next t) (k : Nat) : runFor (k + 1) s = runFor k t := by
  have he : ¬ ended s := fun he => by simp [step_of_ended he] at h
  rw [runFor, if_neg he, h]

/-- Settles O38: the fetch at the end answers runEnded, and a run looks for the end first. -/
theorem endedRunTakesNoStep : Obligations.EndedRunTakesNoStep := by
  unfold Obligations.EndedRunTakesNoStep
  exact fun s h => ⟨step_of_ended h, runFor_of_ended h⟩

/-- Settles O31: a fetched word means that the run has not ended, and the step's fault is recorded. -/
theorem undefinedWordEndsTheRunFaulted : Obligations.UndefinedWordEndsTheRunFaulted := by
  unfold Obligations.UndefinedWordEndsTheRunFaulted
  intro s w k hf hd
  obtain ⟨-, -, he, -⟩ := fetch_ok hf
  have hstep : step s = .fault (.undefined s.pc w) := step_of_decode_error hf hd
  exact runFor_succ_of_fault (fun ⟨_, _, hpc⟩ => he hpc) hstep k

/-- Settles O32: the fetch answers the mark again, and a marked state has not ended. -/
theorem faultedStateIsQuiescent : Obligations.FaultedStateIsQuiescent := by
  unfold Obligations.FaultedStateIsQuiescent
  intro s mark h
  have hstep : step s = .fault (.undefined mark.pc mark.word) := step_of_fetch_error (fetch_of_mark h)
  have he : ¬ ended s := fun ⟨hm, _⟩ => by simp [h] at hm
  refine ⟨hstep, fun k t => ?_⟩
  cases k with
  | zero => simp [runFor_zero_of_not_ended he]
  | succ k => simp [runFor_succ_of_fault he hstep]

/-! ### After reset -/

theorem xRead_reset (n : RegNum) : xRead n 64 State.reset = 0#64 := by
  simp [xRead, State.reset]

/-- Settles O33: every field of State.reset as it is written, the registers and the memory as they are read. -/
theorem resetValues : Obligations.ResetValues := by
  unfold Obligations.ResetValues
  exact ⟨rfl, rfl, xRead_reset, rfl, rfl, fun _ => rfl, rfl, rfl⟩

/-- Settles O34: the empty program is at its own end, with nothing populated. -/
theorem resetMeetsTheRunInvariant : Obligations.ResetMeetsTheRunInvariant := by
  unfold Obligations.ResetMeetsTheRunInvariant
  exact ⟨rfl, by decide, rfl, 0, le_rfl, rfl⟩

end Sys2Proof.Machine
end

section
/-!
PROOFS. Placing PROGRAM populates exactly its bytes (20_memory.md R51, R52), and each of its words is read back from
them.
-/
namespace Sys2Proof.Machine

/-! ### Which addresses a write populates -/

/-- A byte above all populated addresses is listed last. -/
theorem Memory.writeByte_above (m : Memory) (a : XWord) (b : Byte) (h : ∀ c ∈ m, c.1 < a.toNat) :
    m.writeByte a b = m ++ [(a.toNat, b)] := by
  induction m with
  | nil => rfl
  | cons c m ih =>
    have hc := h c List.mem_cons_self
    rw [Memory.writeByte, if_neg hc.asymm, if_neg hc.ne, ih fun d hd => h d (List.mem_cons_of_mem c hd)]
    rfl

/-- Bytes written above all populated addresses, inside the address space, are listed in order after them. -/
theorem map_fst_memWrite (bs : List Byte) :
    ∀ (m : Memory) (a : XWord), (∀ c ∈ m, c.1 < a.toNat) → a.toNat + bs.length ≤ 2 ^ 64 →
      (memWrite m a bs).map Prod.fst = m.map Prod.fst ++ List.range' a.toNat bs.length := by
  induction bs with
  | nil => intro m a _ _; simp [memWrite]
  | cons b bs ih =>
    intro m a hm hlen
    rw [List.length_cons] at hlen
    rw [memWrite, Memory.writeByte_above m a b hm]
    cases bs with
    | nil => simp [memWrite]
    | cons b' bs =>
      have hnext : (a + 1#64).toNat = a.toNat + 1 := by
        rw [List.length_cons] at hlen
        bv_omega
      rw [ih _ _ ?_ (by omega), hnext, List.map_append, List.append_assoc, List.length_cons (a := b),
        List.range'_succ]
      · rfl
      · intro c hc
        rw [hnext]
        rcases List.mem_append.1 hc with hc | hc
        · exact (hm c hc).trans (Nat.lt_succ_self _)
        · obtain rfl := List.mem_singleton.1 hc
          exact Nat.lt_succ_self _

/-! ### The bytes of a program -/

@[simp] theorem length_bytesOfWord (w : Word) : (bytesOfWord w).length = 4 := rfl

theorem length_flatMap_bytesOfWord (program : List Word) :
    (program.flatMap bytesOfWord).length = 4 * program.length := by
  induction program with
  | nil => rfl
  | cons w program ih => rw [List.flatMap_cons, List.length_append, ih, length_bytesOfWord, List.length_cons]; omega

theorem getElem?_bytesOfWord (w : Word) {j : Nat} (hj : j < 4) :
    (bytesOfWord w)[j]? = some (w.extractLsb' (8 * j) 8) := by
  interval_cases j <;> rfl

/-- Byte j of word k (20_memory.md R54). -/
theorem getElem?_flatMap_bytesOfWord {j : Nat} (hj : j < 4) :
    ∀ (program : List Word) (k : Nat) (hk : k < program.length),
      (program.flatMap bytesOfWord)[4 * k + j]? = some (program[k].extractLsb' (8 * j) 8)
  | w :: program, 0, _ => by
    rw [List.flatMap_cons, List.getElem?_append_left (by simpa using hj), Nat.mul_zero, Nat.zero_add]
    exact getElem?_bytesOfWord w hj
  | w :: program, k + 1, hk => by
    have hskip : 4 * (k + 1) + j - (bytesOfWord w).length = 4 * k + j := by
      rw [length_bytesOfWord]; omega
    rw [List.flatMap_cons, List.getElem?_append_right (by rw [length_bytesOfWord]; omega), hskip]
    exact getElem?_flatMap_bytesOfWord hj program k (Nat.lt_of_succ_lt_succ hk)

/-! ### The placed program -/

/-- Short of filling the address space, the end is none of the words (log entry 5). -/
theorem programAddr_ne_programEnd {s : State} {k : Nat} (hfit : 4 * s.progLen < 2 ^ 64) (hk : k < s.progLen) :
    programAddr k s ≠ programEnd s := by
  intro h
  have e := congrArg BitVec.toNat (add_left_cancel (G := XWord) h)
  simp only [BitVec.toNat_ofNat] at e
  omega

theorem readByte_loadProgram (base : XWord) (program : List Word) (s : State) (hfit : 4 * program.length ≤ 2 ^ 64)
    {k j : Nat} (hk : k < program.length) (hj : j < 4) :
    (loadProgram base program s).mem.readByte (base + BitVec.ofNat 64 (4 * k + j)) =
      some (program[k].extractLsb' (8 * j) 8) := by
  have hlen := length_flatMap_bytesOfWord program
  have hoff : (base + BitVec.ofNat 64 (4 * k + j) - base).toNat = 4 * k + j := by
    rw [add_sub_cancel_left, BitVec.toNat_ofNat, Nat.mod_eq_of_lt (by omega)]
  have hlt : 4 * k + j < (program.flatMap bytesOfWord).length := by omega
  rw [loadProgram_mem, readByte_memWrite _ _ _ (by omega), dif_pos (by rw [hoff]; exact hlt),
    ← List.getElem?_eq_getElem, hoff, getElem?_flatMap_bytesOfWord hj program k hk]

theorem programWord_loadProgram (base : XWord) (program : List Word) (s : State) (hfit : 4 * program.length ≤ 2 ^ 64)
    {k : Nat} (hk : k < program.length) : programWord k (loadProgram base program s) = some program[k] := by
  have byte {j : Nat} (hj : j < 4) := readByte_loadProgram base program s hfit hk hj
  simp only [BitVec.ofNat_add, ← add_assoc] at byte
  rw [programWord_of_memRead (memRead_four _ _ _ _ _ _ (by simpa [programAddr] using byte (j := 0) (by decide))
    (byte (j := 1) (by decide)) (byte (j := 2) (by decide)) (byte (j := 3) (by decide)))]
  exact congrArg some (wordOfBytes_bytesOfWord _)

/-- Settles O24: the bytes read back are those placed, and they make up the word. -/
theorem fetchReadsThePlacedProgram : Obligations.FetchReadsThePlacedProgram := by
  unfold Obligations.FetchReadsThePlacedProgram
  intro base program s k hk halign htop hfit
  refine ⟨?_, fun j hj => readByte_loadProgram base program s hfit.le hk hj⟩
  have hp : placementOk (loadProgram base program s) := ⟨halign, htop⟩
  have hne := programAddr_ne_programEnd (s := loadProgram base program s) hfit hk
  exact fetch_of_programWord (s := { loadProgram base program s with pc := base + BitVec.ofNat 64 (4 * k) }) rfl hp hne
    (programIndex_at hp hk rfl) (programWord_loadProgram base program s hfit.le hk)

/-- Settles O35: the bytes are written in order from nothing. -/
theorem placementMeetsTheRunInvariant : Obligations.PlacementMeetsTheRunInvariant := by
  unfold Obligations.PlacementMeetsTheRunInvariant
  intro base program s halign htop
  have hlen := length_flatMap_bytesOfWord program
  refine ⟨rfl, ⟨halign, htop⟩, ?_, 0, Nat.zero_le _, by simp [programAddr]⟩
  rw [loadProgram_mem, map_fst_memWrite _ [] base (by simp) (by omega), hlen]
  rfl

end Sys2Proof.Machine
end

section
/-!
PROOFS. The invariant of a run, what it rules out, and the length of a run whose words all decode (20_memory.md R52;
70_reset_and_hazards.md R144).
-/
namespace Sys2Proof.Machine

/-! ### The pc under the invariant -/

/-- Word addresses of a placed program are multiples of 4 (20_memory.md section 2). -/
theorem programAddr_toNat_mod_four {s : State} (h : s.progBase.toNat % 4 = 0) (k : Nat) :
    (programAddr k s).toNat % 4 = 0 := by
  simp only [programAddr, BitVec.toNat_add, BitVec.toNat_ofNat]
  omega

theorem programAddr_succ (k : Nat) (s : State) : programAddr k s + 4#64 = programAddr (k + 1) s := by
  rw [programAddr, programAddr, add_assoc, ← BitVec.ofNat_add]
  rfl

theorem programAddr_congr {s t : State} (h : t.progBase = s.progBase) (k : Nat) :
    programAddr k t = programAddr k s := by
  rw [programAddr, programAddr, h]

/-- Settles O36: the step was at word k, and leaves the pc at word k + 1 or at the end. -/
theorem stepKeepsTheRunInvariant : Obligations.StepKeepsTheRunInvariant := by
  unfold Obligations.StepKeepsTheRunInvariant
  intro s t ⟨_, hp, hmem, _⟩ h
  obtain ⟨-, -, ⟨k, hk, hpc⟩, -⟩ := step_next_cases h
  obtain ⟨emem, ebase, elen, -, -, hm, epc⟩ := stepLeavesProgramAndPstate s t h
  have hpc' : t.pc = programAddr (k + 1) t := by
    rw [epc, hpc, programAddr_succ, programAddr_congr ebase]
  have hp' : placementOk t := by
    rw [placementOk, ebase, elen]; exact hp
  refine ⟨⟨hm, hp', ?_, k + 1, elen ▸ hk, hpc'⟩, ?_⟩
  · rw [emem, ebase, elen]; exact hmem
  · rw [hpc']; exact programAddr_toNat_mod_four hp'.1 (k + 1)

/-! ### The fetch under the invariant -/

theorem Memory.exists_readByte {m : Memory} {a : XWord} (h : a.toNat ∈ m.map Prod.fst) :
    ∃ b, m.readByte a = some b := by
  induction m with
  | nil => simp at h
  | cons c m ih =>
    by_cases hc : c.1 = a.toNat
    · exact ⟨c.2, by simp [Memory.readByte, hc]⟩
    · obtain ⟨b, hb⟩ := ih (by simpa [Ne.symm hc] using h)
      exact ⟨b, by simp [Memory.readByte, hc, hb]⟩

/-- Under the invariant every word of PROGRAM is there. -/
theorem exists_programWord {s : State} (h : Inv s) {k : Nat} (hk : k < s.progLen) :
    ∃ w, programWord k s = some w := by
  obtain ⟨-, ⟨-, htop⟩, hmem, -⟩ := h
  have byte (j : Nat) (hj : j < 4) : ∃ b, s.mem.readByte (programAddr k s + BitVec.ofNat 64 j) = some b := by
    refine Memory.exists_readByte ?_
    rw [hmem, List.mem_range'_1]
    simp only [programAddr, BitVec.toNat_add, BitVec.toNat_ofNat, Config.addressSpace] at htop ⊢
    omega
  obtain ⟨b0, h0⟩ := byte 0 (by decide)
  obtain ⟨b1, h1⟩ := byte 1 (by decide)
  obtain ⟨b2, h2⟩ := byte 2 (by decide)
  obtain ⟨b3, h3⟩ := byte 3 (by decide)
  exact ⟨_, programWord_of_memRead (memRead_four _ _ _ _ _ _ (by simpa using h0) h1 h2 h3)⟩

/-- Under the invariant, off the end, the fetch gives the word at the pc. -/
theorem fetch_of_inv {s : State} (h : Inv s) (he : s.pc ≠ programEnd s) :
    ∃ k w, k < s.progLen ∧ s.pc = programAddr k s ∧ programWord k s = some w ∧ fetch s = .ok w := by
  obtain ⟨hm, hp, -, k, hk, hpc⟩ := id h
  have hlt : k < s.progLen := Nat.lt_of_le_of_ne hk fun e => he (hpc.trans (by rw [e, programEnd]))
  obtain ⟨w, hw⟩ := exists_programWord h hlt
  exact ⟨k, w, hlt, hpc, hw, fetch_of_programWord hm hp he (programIndex_at hp hlt hpc) hw⟩

/-- A fetched word makes a step refuse only when it is outside the class (30_encoding.md R76). -/
theorem step_refused_of_fetch {s : State} {w : Word} {r : Refusal} (hf : fetch s = .ok w) (h : step s = .refused r) :
    r = .notInSpec s.pc w ∧ inClass w ≠ true := by
  cases hd : decode w with
  | ok i =>
    obtain ⟨t, ht⟩ := exec_next_of_decode hd s
    rw [step_of_decode_ok hf hd, ht] at h
    cases h
  | error e =>
    rw [step_of_decode_error hf hd] at h
    cases e with
    | undefined => cases h
    | tooFewBytes => exact absurd hd (decode_ne_tooFewBytes w)
    | notInSpec => cases h; exact ⟨rfl, (decode_eq_notInSpec_iff w).1 hd⟩

/-- Settles O37: at the end the step answers runEnded; off the end a word is fetched. -/
theorem runsNeverFetchOutsideProgram : Obligations.RunsNeverFetchOutsideProgram := by
  unfold Obligations.RunsNeverFetchOutsideProgram
  intro s h
  have off (he : s.pc ≠ programEnd s) : ∃ w, fetch s = .ok w :=
    have ⟨_, w, _, _, _, hf⟩ := fetch_of_inv h he
    ⟨w, hf⟩
  refine ⟨off, fun r hr => ?_⟩
  by_cases he : s.pc = programEnd s
  · obtain ⟨hm, hp, -⟩ := h
    rw [step_of_ended ⟨hm, hp, he⟩] at hr
    cases hr
    exact .inl ⟨he, rfl⟩
  · obtain ⟨w, hf⟩ := off he
    obtain ⟨hr', hc⟩ := step_refused_of_fetch hf hr
    exact .inr ⟨w, hf, hr', fun hw => hc ((inClass_iff w).2 hw)⟩

/-! ### The length of a run -/

/-- What still holds after j steps of a run from the first word of PROGRAM: the placement, and the pc at word j. -/
def AtWord (j : Nat) (s t : State) : Prop :=
  Inv t ∧ t.mem = s.mem ∧ t.progBase = s.progBase ∧ t.progLen = s.progLen ∧ t.pc = programAddr j s

theorem programWord_congr {s t : State} (hmem : t.mem = s.mem) (hbase : t.progBase = s.progBase) (k : Nat) :
    programWord k t = programWord k s := by
  rw [programWord, programWord, hmem, programAddr_congr hbase]

theorem programEnd_congr {s t : State} (hbase : t.progBase = s.progBase) (hlen : t.progLen = s.progLen) :
    programEnd t = programEnd s := by
  rw [programEnd, programEnd, hlen, programAddr_congr hbase]

/-- At a word that decodes, a step leads to the next word. -/
theorem AtWord.step {j : Nat} {s t : State} (h : AtWord j s t) (hfit : 4 * s.progLen < 2 ^ 64) (hj : j < s.progLen)
    (hd : ∃ w i, programWord j s = some w ∧ decode w = .ok i) :
    ∃ u, Machine.step t = .next u ∧ AtWord (j + 1) s u := by
  obtain ⟨hinv, hmem, hbase, hlen, hpc⟩ := h
  obtain ⟨w, i, hw, hi⟩ := hd
  have hpc' : t.pc = programAddr j t := by rw [hpc, programAddr_congr hbase]
  have hf : fetch t = .ok w := by
    refine fetch_of_programWord hinv.1 hinv.2.1 ?_ (programIndex_at hinv.2.1 (hlen ▸ hj) hpc') ?_
    · rw [hpc']; exact programAddr_ne_programEnd (hlen ▸ hfit) (hlen ▸ hj)
    · rw [programWord_congr hmem hbase, hw]
  obtain ⟨u, hu⟩ := exec_next_of_decode hi t
  have hstep : Machine.step t = .next u := by rw [step_of_decode_ok hf hi, hu]
  obtain ⟨umem, ubase, ulen, -, -, -, upc⟩ := stepLeavesProgramAndPstate t u hstep
  exact ⟨u, hstep, (stepKeepsTheRunInvariant t u hinv hstep).1, umem.trans hmem, ubase.trans hbase, ulen.trans hlen,
    by rw [upc, hpc, programAddr_succ]⟩

/-- A run of one more step takes that step first. -/
theorem run_succ_eq_next_iff (M : Host.Core) {j : Nat} {s t : M.State} :
    M.run (j + 1) s = .next t ↔ ∃ u, M.step s = .next u ∧ M.run j u = .next t := by
  rw [Host.Core.run]
  cases M.step s <;> simp

/-- A longer run goes on where a run that completes its steps has come to. -/
theorem runFor_add_of_run {u : State} (k : Nat) :
    ∀ {j : Nat} {t : State}, core.run j t = .next u → runFor (k + j) t = runFor k u
  | 0, _, h => by cases h; rfl
  | j + 1, t, h => by
    obtain ⟨v, hv, hrun⟩ := (run_succ_eq_next_iff core).1 h
    rw [← Nat.add_assoc, runFor_succ_of_next hv, runFor_add_of_run k hrun]

/-- Where all words decode, a run of j steps leads j words on. -/
theorem AtWord.run {s : State} (hfit : 4 * s.progLen < 2 ^ 64)
    (hd : ∀ k, k < s.progLen → ∃ w i, programWord k s = some w ∧ decode w = .ok i) :
    ∀ {j i : Nat} {t : State}, AtWord i s t → i + j ≤ s.progLen → ∃ u, core.run j t = .next u ∧ AtWord (i + j) s u
  | 0, _, t, h, _ => ⟨t, rfl, h⟩
  | j + 1, i, _, h, hle => by
    obtain ⟨v, hv, hat⟩ := h.step hfit (by omega) (hd i (by omega))
    obtain ⟨u, hu, hat'⟩ := AtWord.run (j := j) hfit hd hat (by omega)
    exact ⟨u, (run_succ_eq_next_iff core).2 ⟨v, hv, hu⟩, by rwa [Nat.add_assoc, Nat.add_comm 1] at hat'⟩

/-- The run has ended exactly at word L. -/
theorem AtWord.ended_iff {j : Nat} {s t : State} (h : AtWord j s t) (hfit : 4 * s.progLen < 2 ^ 64)
    (hj : j ≤ s.progLen) : ended t ↔ j = s.progLen := by
  obtain ⟨⟨hm, hp, -⟩, -, hbase, hlen, hpc⟩ := h
  have hpcEnd : t.pc = programEnd t ↔ programAddr j s = programEnd s := by rw [hpc, programEnd_congr hbase hlen]
  refine ⟨fun ⟨_, _, he⟩ => ?_, fun hjL => ⟨hm, hp, hpcEnd.2 (by rw [hjL, programEnd])⟩⟩
  by_contra hne
  exact programAddr_ne_programEnd hfit (Nat.lt_of_le_of_ne hj hne) (hpcEnd.1 he)

/-- Settles O39: by induction on the steps, each leads from a word that decodes to the next one; only after L of them
is the pc at the end. -/
theorem runEndsAfterExactlyItsLength : Obligations.RunEndsAfterExactlyItsLength := by
  unfold Obligations.RunEndsAfterExactlyItsLength
  intro s hinv hpc hfit hd
  have start : AtWord 0 s s := ⟨hinv, rfl, rfl, rfl, by simp [hpc, programAddr]⟩
  have reach {j : Nat} (hj : j ≤ s.progLen) : ∃ t, core.run j s = .next t ∧ AtWord j s t := by
    simpa using start.run hfit hd (j := j) (by omega)
  refine ⟨fun j hj => ?_, ?_⟩
  · obtain ⟨t, hrun, hat⟩ := reach hj.le
    have he : ¬ ended t := fun he => hj.ne ((hat.ended_iff hfit hj.le).1 he)
    have hres : runFor j s = .running t := by
      rw [← Nat.zero_add j, runFor_add_of_run 0 hrun, runFor_zero_of_not_ended he]
    obtain ⟨-, -, -, -, hpc'⟩ := hat
    exact ⟨t, hres, hpc'⟩
  · obtain ⟨t, hrun, hat⟩ := reach le_rfl
    have he : ended t := (hat.ended_iff hfit le_rfl).2 rfl
    refine ⟨t, hrun, he, fun j hj => ?_⟩
    rw [← Nat.sub_add_cancel hj, runFor_add_of_run _ hrun, runFor_of_ended he]

end Sys2Proof.Machine
end

section
/-!
PROOFS. The printer against the assembler (30_encoding.md R82, R85, R88): the printed tail reads as the extension and
shift it was made of, and the width of the second source's name is the one the template reads.
-/
namespace Sys2Proof.Machine

theorem tailFields_named {shift : Fin 8} (h : shift.val ≤ 4) (is64 spReg : Bool) (ext : ExtendType) :
    tailFields is64 spReg (some (.named ext)) (some shift.val) = some (ext, shift) := by
  simp [tailFields, (amountShift_eq_some_iff _ shift).2 ⟨h, rfl⟩]

/-- The preferred tail reads as the extension and the shift it was made of. -/
theorem tailFields_preferredTail {shift : Fin 8} (h : shift.val ≤ 4) (is64 spReg : Bool) (ext : ExtendType) :
    tailFields is64 spReg (preferredTail is64 spReg ext shift).1 (preferredTail is64 spReg ext shift).2 =
      some (ext, shift) := by
  have hzero (h0 : shift.val = 0) : shift = 0 := Fin.ext h0
  unfold preferredTail
  split
  · next hlsl =>
    obtain ⟨rfl, rfl⟩ := hlsl
    split
    · next h0 => rw [hzero h0]; exact tailFields_omitted is64
    · exact tailFields_lsl h is64
  · split
    · next h0 => rw [hzero h0]; exact tailFields_named (shift := 0) (by decide) is64 spReg ext
    · exact tailFields_named h is64 spReg ext

theorem assemble_disassemble {i : Instr} (h : i.wf = true) : assemble (disassemble i) = some i := by
  obtain ⟨is64, d, n, m, ext, shift, rfl⟩ := instr_eq_subInstr i
  have htail := tailFields_preferredTail ((subInstr_wf_iff ..).1 h) is64 (decide (d = 31 ∨ n = 31)) ext
  have hst := assemble_disassemble_with_tail (m := m) htail
  rw [disassemble_subInstr] at hst ⊢
  exact hst

/-- Settles O40: the printed parts read as the operands, and the word decodes to the instruction. -/
theorem assembleOfDisassemble : Obligations.AssembleOfDisassemble := by
  unfold Obligations.AssembleOfDisassemble
  intro i h
  refine ⟨assemble_disassemble h, ?_⟩
  rw [disassembleWord, decode_encodeWord h]
  simp only [Option.bind_some, assembleWord, assemble_disassemble h, Option.map_some]

/-! ### The second source -/

/-- The second-source names that one width specifier admits (30_encoding.md R82). -/
theorem regOrZrNumber_eq_some {isX : Bool} {name : RegName} {m : RegNum} (h : regOrZrNumber isX name = some m) :
    if isX = true then name = .xzr ∧ m = 31 ∨ ∃ k, name = .x k ∧ m.val = k.val
    else name = .wzr ∧ m = 31 ∨ ∃ k, name = .w k ∧ m.val = k.val := by
  match isX, name, h with
  | false, .wzr, rfl => exact .inl ⟨rfl, rfl⟩
  | false, .w k, rfl => exact .inr ⟨k, rfl, rfl⟩
  | true, .xzr, rfl => exact .inl ⟨rfl, rfl⟩
  | true, .x k, rfl => exact .inr ⟨k, rfl, rfl⟩

theorem secondIsX_iff (is64 : Bool) (ext : ExtendType) :
    secondIsX is64 ext = true ↔ is64 = true ∧ (ext = .uxtx ∨ ext = .sxtx) := by
  simp [secondIsX]

/-- Settles O43: the second source is read by the width specifier that the encoding and the extension give. -/
theorem secondSourceNameAgreesWithExtend : Obligations.SecondSourceNameAgreesWithExtend := by
  unfold Obligations.SecondSourceNameAgreesWithExtend
  intro st is64 d n m ext shift h
  obtain ⟨-, -, -, hm⟩ := (assemble_subInstr_iff _ _ _ _ _ _ _).1 h
  have hname := regOrZrNumber_eq_some hm
  simpa only [secondIsX_iff] using hname

end Sys2Proof.Machine
end
